-- ==== Sys2Proof/Word.lean ====
section
/-! DEFINITION. The word types: what the spec treats as bits (00_scope.md R6, R7). -/

namespace Sys2Proof

/-- A memory byte, a general register or a timer: 8 bits, unsigned (R21, R27, R30). -/
abbrev Byte := BitVec 8

/-- An opcode, `I`, `PC` or a return address: 16 bits, unsigned (R24, R25, R26, R90). -/
abbrev Word := BitVec 16

/-- A register index, the field `x` or `y` of an opcode (R7, R21). -/
abbrev RegIdx := BitVec 4

/-- The 4-bit immediate `n` (R7). -/
abbrev Nibble := BitVec 4

/-- The 12-bit immediate `nnn` (R7, R92). -/
abbrev Addr := BitVec 12

end Sys2Proof
end

