-- ==== Sys2Proof/Syntax.lean ====
section
/-! DEFINITION. The instructions: one constructor per row of spec/opcode_table.json (30_encoding.md R97, R99), in the
table's order. Every field has exactly the width the format gives it (R91 to R96), so every value of a field is legal. -/

namespace Sys2Proof

/-- The 34 instructions of R97. The `y` field of `8xy6` and `8xyE` is decoded but not used (R94); it is kept here so that
two words never become one instruction (log entry 12). -/
inductive Instr where
  /-- `00E0` -/
  | cls
  /-- `00EE` -/
  | ret
  /-- `1nnn` -/
  | jp (nnn : Addr)
  /-- `2nnn` -/
  | call (nnn : Addr)
  /-- `3xnn` -/
  | seImm (x : RegIdx) (nn : Byte)
  /-- `4xnn` -/
  | sneImm (x : RegIdx) (nn : Byte)
  /-- `5xy0` -/
  | seReg (x y : RegIdx)
  /-- `6xnn` -/
  | ldImm (x : RegIdx) (nn : Byte)
  /-- `7xnn` -/
  | addImm (x : RegIdx) (nn : Byte)
  /-- `8xy0` -/
  | ldReg (x y : RegIdx)
  /-- `8xy1` -/
  | orReg (x y : RegIdx)
  /-- `8xy2` -/
  | andReg (x y : RegIdx)
  /-- `8xy3` -/
  | xorReg (x y : RegIdx)
  /-- `8xy4` -/
  | addReg (x y : RegIdx)
  /-- `8xy5` -/
  | subReg (x y : RegIdx)
  /-- `8xy6` -/
  | shr (x y : RegIdx)
  /-- `8xy7` -/
  | subnReg (x y : RegIdx)
  /-- `8xyE` -/
  | shl (x y : RegIdx)
  /-- `9xy0` -/
  | sneReg (x y : RegIdx)
  /-- `Annn` -/
  | ldI (nnn : Addr)
  /-- `Bnnn` -/
  | jpV0 (nnn : Addr)
  /-- `Cxnn` -/
  | rnd (x : RegIdx) (nn : Byte)
  /-- `Dxyn` -/
  | drw (x y : RegIdx) (n : Nibble)
  /-- `Ex9E` -/
  | skp (x : RegIdx)
  /-- `ExA1` -/
  | sknp (x : RegIdx)
  /-- `Fx07` -/
  | ldRegDt (x : RegIdx)
  /-- `Fx0A` -/
  | ldKey (x : RegIdx)
  /-- `Fx15` -/
  | ldDt (x : RegIdx)
  /-- `Fx18` -/
  | ldSt (x : RegIdx)
  /-- `Fx1E` -/
  | addI (x : RegIdx)
  /-- `Fx29` -/
  | ldFont (x : RegIdx)
  /-- `Fx33` -/
  | ldBcd (x : RegIdx)
  /-- `Fx55` -/
  | storeRegs (x : RegIdx)
  /-- `Fx65` -/
  | loadRegs (x : RegIdx)
  deriving DecidableEq, Repr

end Sys2Proof
end

