-- ==== Sys2Proof/WellFormed.lean ====
section
/-! DEFINITION. What a well-formed instruction word is: one that matches a row of the opcode table (30_encoding.md R97, R99,
R100). The table stands here as data, apart from the decoder, so that the decoder can be held against it. An `Instr` itself
needs no further check: every field has the width its format gives it and every value of every field is legal (R92 to R96). -/

namespace Sys2Proof

/-- The six instruction formats (R91 to R96). -/
inductive Format where
  | z | a | xk | xy | xyn | xf
  deriving DecidableEq, Repr

/-- One row of the opcode table: a word `w` is the instruction exactly when `w AND mask = pattern` (R97). -/
structure Row where
  name : String
  format : Format
  mask : Word
  pattern : Word
  deriving DecidableEq, Repr

/-- The word matches the row (R97). -/
def Row.accepts (r : Row) (w : Word) : Bool := w &&& r.mask == r.pattern

/-- Rows of families 0 to 7 (R97). -/
def rowsControl : List Row :=
  [⟨"00E0", .z, 0xFFFF, 0x00E0⟩,
   ⟨"00EE", .z, 0xFFFF, 0x00EE⟩,
   ⟨"1nnn", .a, 0xF000, 0x1000⟩,
   ⟨"2nnn", .a, 0xF000, 0x2000⟩,
   ⟨"3xnn", .xk, 0xF000, 0x3000⟩,
   ⟨"4xnn", .xk, 0xF000, 0x4000⟩,
   ⟨"5xy0", .xy, 0xF00F, 0x5000⟩,
   ⟨"6xnn", .xk, 0xF000, 0x6000⟩,
   ⟨"7xnn", .xk, 0xF000, 0x7000⟩]

/-- Rows of families 8 and 9 (R97). -/
def rowsArith : List Row :=
  [⟨"8xy0", .xy, 0xF00F, 0x8000⟩,
   ⟨"8xy1", .xy, 0xF00F, 0x8001⟩,
   ⟨"8xy2", .xy, 0xF00F, 0x8002⟩,
   ⟨"8xy3", .xy, 0xF00F, 0x8003⟩,
   ⟨"8xy4", .xy, 0xF00F, 0x8004⟩,
   ⟨"8xy5", .xy, 0xF00F, 0x8005⟩,
   ⟨"8xy6", .xy, 0xF00F, 0x8006⟩,
   ⟨"8xy7", .xy, 0xF00F, 0x8007⟩,
   ⟨"8xyE", .xy, 0xF00F, 0x800E⟩,
   ⟨"9xy0", .xy, 0xF00F, 0x9000⟩]

/-- Rows of families A to E (R97). -/
def rowsIndex : List Row :=
  [⟨"Annn", .a, 0xF000, 0xA000⟩,
   ⟨"Bnnn", .a, 0xF000, 0xB000⟩,
   ⟨"Cxnn", .xk, 0xF000, 0xC000⟩,
   ⟨"Dxyn", .xyn, 0xF000, 0xD000⟩,
   ⟨"Ex9E", .xf, 0xF0FF, 0xE09E⟩,
   ⟨"ExA1", .xf, 0xF0FF, 0xE0A1⟩]

/-- Rows of family F (R97). -/
def rowsMisc : List Row :=
  [⟨"Fx07", .xf, 0xF0FF, 0xF007⟩,
   ⟨"Fx0A", .xf, 0xF0FF, 0xF00A⟩,
   ⟨"Fx15", .xf, 0xF0FF, 0xF015⟩,
   ⟨"Fx18", .xf, 0xF0FF, 0xF018⟩,
   ⟨"Fx1E", .xf, 0xF0FF, 0xF01E⟩,
   ⟨"Fx29", .xf, 0xF0FF, 0xF029⟩,
   ⟨"Fx33", .xf, 0xF0FF, 0xF033⟩,
   ⟨"Fx55", .xf, 0xF0FF, 0xF055⟩,
   ⟨"Fx65", .xf, 0xF0FF, 0xF065⟩]

/-- The opcode table, 34 rows (R97). -/
def opcodeRows : List Row := rowsControl ++ rowsArith ++ rowsIndex ++ rowsMisc

/-- A well-formed instruction word: some row of the table accepts it; every other word is an illegal encoding (R100). -/
def wordWellFormed (w : Word) : Bool := opcodeRows.any (·.accepts w)

/-- The table row that an instruction is of (R97). -/
def Instr.row : Instr → Row
  | .cls => ⟨"00E0", .z, 0xFFFF, 0x00E0⟩
  | .ret => ⟨"00EE", .z, 0xFFFF, 0x00EE⟩
  | .jp _ => ⟨"1nnn", .a, 0xF000, 0x1000⟩
  | .call _ => ⟨"2nnn", .a, 0xF000, 0x2000⟩
  | .seImm _ _ => ⟨"3xnn", .xk, 0xF000, 0x3000⟩
  | .sneImm _ _ => ⟨"4xnn", .xk, 0xF000, 0x4000⟩
  | .seReg _ _ => ⟨"5xy0", .xy, 0xF00F, 0x5000⟩
  | .ldImm _ _ => ⟨"6xnn", .xk, 0xF000, 0x6000⟩
  | .addImm _ _ => ⟨"7xnn", .xk, 0xF000, 0x7000⟩
  | .ldReg _ _ => ⟨"8xy0", .xy, 0xF00F, 0x8000⟩
  | .orReg _ _ => ⟨"8xy1", .xy, 0xF00F, 0x8001⟩
  | .andReg _ _ => ⟨"8xy2", .xy, 0xF00F, 0x8002⟩
  | .xorReg _ _ => ⟨"8xy3", .xy, 0xF00F, 0x8003⟩
  | .addReg _ _ => ⟨"8xy4", .xy, 0xF00F, 0x8004⟩
  | .subReg _ _ => ⟨"8xy5", .xy, 0xF00F, 0x8005⟩
  | .shr _ _ => ⟨"8xy6", .xy, 0xF00F, 0x8006⟩
  | .subnReg _ _ => ⟨"8xy7", .xy, 0xF00F, 0x8007⟩
  | .shl _ _ => ⟨"8xyE", .xy, 0xF00F, 0x800E⟩
  | .sneReg _ _ => ⟨"9xy0", .xy, 0xF00F, 0x9000⟩
  | .ldI _ => ⟨"Annn", .a, 0xF000, 0xA000⟩
  | .jpV0 _ => ⟨"Bnnn", .a, 0xF000, 0xB000⟩
  | .rnd _ _ => ⟨"Cxnn", .xk, 0xF000, 0xC000⟩
  | .drw _ _ _ => ⟨"Dxyn", .xyn, 0xF000, 0xD000⟩
  | .skp _ => ⟨"Ex9E", .xf, 0xF0FF, 0xE09E⟩
  | .sknp _ => ⟨"ExA1", .xf, 0xF0FF, 0xE0A1⟩
  | .ldRegDt _ => ⟨"Fx07", .xf, 0xF0FF, 0xF007⟩
  | .ldKey _ => ⟨"Fx0A", .xf, 0xF0FF, 0xF00A⟩
  | .ldDt _ => ⟨"Fx15", .xf, 0xF0FF, 0xF015⟩
  | .ldSt _ => ⟨"Fx18", .xf, 0xF0FF, 0xF018⟩
  | .addI _ => ⟨"Fx1E", .xf, 0xF0FF, 0xF01E⟩
  | .ldFont _ => ⟨"Fx29", .xf, 0xF0FF, 0xF029⟩
  | .ldBcd _ => ⟨"Fx33", .xf, 0xF0FF, 0xF033⟩
  | .storeRegs _ => ⟨"Fx55", .xf, 0xF0FF, 0xF055⟩
  | .loadRegs _ => ⟨"Fx65", .xf, 0xF0FF, 0xF065⟩

/-- Two bytes that hold a well-formed instruction word, the first byte the higher one (R64, R90). -/
def bytesWellFormed : List Byte → Bool
  | hi :: lo :: _ => wordWellFormed (hi ++ lo)
  | _ => false

end Sys2Proof
end

