-- ==== Sys2Proof/Config.lean ====
section
/-! DEFINITION. What is fixed for the machine but is not its state: the free input of `Cxnn`, the display colours and the
reset rate (00_scope.md R5). The model parameter FONT is an argument
of the operations that reset the core (its type is here, its default in Machine/Font.lean). -/

namespace Sys2Proof

/-- The random input RND: `Config.rnd k` is the byte that the `k`-th executed `Cxnn` draws (R38, R160). It has no body:
nothing can be proved about its values, so a theorem holds for every sequence of bytes. Log entry 5, marked DESIGN CHOICE
(the counter that indexes it is the model's). -/
opaque Config.rnd : Nat → Byte

/-- A value of the model parameter FONT: 80 bytes, glyph `d` at offset `5 * d` (R5, R33). -/
abbrev Font := Vector Byte 80

/-- One pixel of the presentation buffer: red, green, blue (R42). -/
structure Rgb where
  red : Byte
  green : Byte
  blue : Byte
  deriving DecidableEq, Repr

/-- `COLOR_ON`, amber (R5). -/
def Config.colorOn : Rgb := ⟨0xFF, 0xBB, 0x00⟩

/-- `COLOR_OFF`, black (R5). -/
def Config.colorOff : Rgb := ⟨0x00, 0x00, 0x00⟩

/-- The value of `RATE` after reset (R5, R36). -/
def Config.resetRate : Nat := 500

end Sys2Proof
end

