-- ==== Sys2Proof/Machine/Font.lean ====
section
/-! DEFINITION. The default of the model parameter FONT (10_state.md R33, 00_scope.md R5). -/

namespace Sys2Proof.Machine

/-- The 16 glyphs of 5 bytes, digit by digit: the default of FONT that R33 prints. PRESUMED (log entry 7): the spec marks the
values as general knowledge, decision D12. -/
def glyphs : List (List Byte) :=
  [[0xF0, 0x90, 0x90, 0x90, 0xF0],
   [0x20, 0x60, 0x20, 0x20, 0x70],
   [0xF0, 0x10, 0xF0, 0x80, 0xF0],
   [0xF0, 0x10, 0xF0, 0x10, 0xF0],
   [0x90, 0x90, 0xF0, 0x10, 0x10],
   [0xF0, 0x80, 0xF0, 0x10, 0xF0],
   [0xF0, 0x80, 0xF0, 0x90, 0xF0],
   [0xF0, 0x10, 0x20, 0x40, 0x40],
   [0xF0, 0x90, 0xF0, 0x90, 0xF0],
   [0xF0, 0x90, 0xF0, 0x10, 0xF0],
   [0xF0, 0x90, 0xF0, 0x90, 0x90],
   [0xE0, 0x90, 0xE0, 0x90, 0xE0],
   [0xF0, 0x80, 0x80, 0x80, 0xF0],
   [0xE0, 0x90, 0x90, 0x90, 0xE0],
   [0xF0, 0x80, 0xF0, 0x80, 0xF0],
   [0xF0, 0x80, 0xF0, 0x80, 0x80]]

/-- The default's 80 bytes, glyph `d` at offset `5 * d` (R33, R68). -/
def fontBytes : List Byte := glyphs.flatten

/-- The default of the parameter FONT (R5, R33). -/
def fontDefault : Font := Vector.ofFn (fun k => fontBytes.getD k.val 0)

end Sys2Proof.Machine
end

