-- ==== Sys2Proof/Machine/State.lean ====
section
/-! DEFINITION. The state of the machine as plain data, the reasons a step can stop, and the state after reset
(10_state.md R20 to R46). -/

namespace Sys2Proof.Machine

/-- Which array an out-of-range access named (10_state.md R37, 60_exceptions.md R270). -/
inductive ArrayKind where
  | memory
  | keypad
  deriving DecidableEq, Repr

/-- The fatal faults of the core (R37, R270). A step that raises one answers a NEXT state in which `FAULT` holds it (R276);
a step of a core whose `FAULT` already holds one answers `fault` with it, because a faulted core has no step (R278). -/
inductive Fault where
  /-- Raised by the decode phase for a word that is none of the 34 instructions (R271); safe: the core stops. -/
  | invalidOpcode (op : Word)
  /-- Raised by `00EE` with an empty call stack (R272); safe: the core stops. -/
  | stackUnderflow
  /-- Raised by `2nnn` with 16 return addresses on the stack (R273, the spec's decision D1); safe: the core stops where the
  original software would recurse deeper. -/
  | stackOverflow
  /-- Raised by a fetch, `Dxyn`, `Fx33`, `Fx55`, `Fx65` for a memory address above 4095 and by `Ex9E`, `ExA1` for a key index
  above 15 (R274), with the lowest offending index; safe: the core stops. -/
  | outOfRange (kind : ArrayKind) (index : Nat)
  deriving DecidableEq, Repr

/-- Why an instruction has no meaning. -/
inductive Refusal where
  /-- Raised by an arm of `exec` whose instruction has no meaning yet; no arm raises it, since all 34 instructions have their
  meaning. Safe: nothing can be proved of an instruction that is refused. -/
  | notModelled (mnemonic : String)
  deriving DecidableEq, Repr

/-- Memory: address and byte pairs in one canonical form (addresses strictly rising, below 4096, and no entry equal to what
an unlisted address reads as); see Machine/Memory.lean. -/
abbrev Memory := List Host.Cell

/-- The pixel grid: 32 rows (`cy`) of 64 pixels (`cx`), on or off (R29). -/
abbrev Pixels := Vector (Vector Bool 64) 32

/-- Every pixel off. -/
def Pixels.blank : Pixels := Vector.replicate 32 (Vector.replicate 64 false)

/-- The complete state of the core (R20), and one field of the model's own, `draws`. -/
structure State where
  /-- `V[0..15]`; `V[15]` is also the flag `VF` (R21, R22). -/
  v : Vector Byte 16
  /-- `I`, the index register (R24). -/
  i : Word
  /-- `PC` (R25). -/
  pc : Word
  /-- `STK[0..15]`, the return addresses; entries at `SP` and above hold no meaning (R26). -/
  stk : Vector Word 16
  /-- `SP`, how many return addresses are live, 0 to 16 (R26). -/
  sp : Fin 17
  /-- `DT`, the delay timer (R27). -/
  dt : Byte
  /-- `ST`, the sound timer (R27). -/
  st : Byte
  /-- `KEY[0..15]`, the keypad snapshot (R28). -/
  key : Vector Bool 16
  /-- `PIX`, the display grid (R29). -/
  pix : Pixels
  /-- `MEM[0..4095]` (R30). -/
  mem : Memory
  /-- `TACC`, the timer accumulator, in seconds (R34). -/
  tacc : Rat
  /-- `IACC`, the instruction accumulator, in seconds (R35). -/
  iacc : Rat
  /-- `RATE`, instructions per second (R36). -/
  rate : Nat
  /-- `FAULT`; `none` while the core runs (R37). -/
  fault : Option Fault
  /-- The MODEL's field: how many random bytes have been drawn (R160; log entry 5, DESIGN CHOICE). -/
  draws : Nat
  deriving DecidableEq, Repr

/-- The state right after reset with the default of the parameter FONT (R43, R310, R33). Memory lists nothing: an unlisted
address reads as the reset contents. For any FONT see `State.resetWith` in Machine/Ops.lean. -/
def State.reset : State where
  v := Vector.replicate 16 0
  i := 0
  pc := 0x200
  stk := Vector.replicate 16 0
  sp := 0
  dt := 0
  st := 0
  key := Vector.replicate 16 false
  pix := Pixels.blank
  mem := []
  tacc := 0
  iacc := 0
  rate := Config.resetRate
  fault := none
  draws := 0

end Sys2Proof.Machine
end

