-- ==== Sys2Proof/Machine/Memory.lean ====
section
/-! DEFINITION. Memory as a list of cells in one canonical form, and the reads and writes of it (10_state.md R30, R43;
20_memory.md R60 to R72). Nothing here checks a bound: the checked accesses are in Machine/Ops.lean. -/

namespace Sys2Proof.Machine

/-- What an address that no cell lists reads as: the contents after a reset with the default FONT, its bytes from 0x000 to
0x04F and zero elsewhere (R43). A reset with another FONT lists the bytes that differ (`Memory.ofFont`). -/
def Memory.unlisted (a : Nat) : Byte := fontBytes.getD a 0

/-- The byte at an address. -/
def Memory.read : Memory → Nat → Byte
  | [], a => Memory.unlisted a
  | c :: m, a => if c.1 = a then c.2 else Memory.read m a

/-- The memory without any cell for `a`. -/
def Memory.erase (m : Memory) (a : Nat) : Memory := m.filter (fun c => c.1 != a)

/-- A cell put before the first cell of a higher address. -/
def Memory.insert : Memory → Nat → Byte → Memory
  | [], a, b => [(a, b)]
  | c :: m, a, b => if a < c.1 then (a, b) :: c :: m else c :: Memory.insert m a b

/-- The byte at `a` becomes `b`; writing what an unlisted address reads as removes the cell. -/
def Memory.write (m : Memory) (a : Nat) (b : Byte) : Memory :=
  if b = Memory.unlisted a then Memory.erase m a else Memory.insert (Memory.erase m a) a b

/-- Bytes written from `a` upwards, in ascending address order (R67). -/
def Memory.writeAll : Memory → Nat → List Byte → Memory
  | m, _, [] => m
  | m, a, b :: bs => Memory.writeAll (Memory.write m a b) (a + 1) bs

/-- Memory after a reset with the given FONT: its bytes from 0x000 to 0x04F and zero elsewhere (R43, R33). -/
def Memory.ofFont (font : Font) : Memory := Memory.writeAll [] 0 font.toList

/-- `n` bytes from `a` upwards, in ascending address order (R67). -/
def Memory.readAll (m : Memory) (a n : Nat) : List Byte := (List.range n).map (fun k => Memory.read m (a + k))

/-- The canonical form: addresses strictly rising, all of them addresses that exist (R61), and no cell that holds what an
unlisted address reads as. -/
abbrev Memory.wf (m : Memory) : Prop :=
  m.Pairwise (fun c d => c.1 < d.1) ∧ ∀ c ∈ m, c.1 < 4096 ∧ c.2 ≠ Memory.unlisted c.1

end Sys2Proof.Machine
end

