-- ==== Sys2Proof/Machine/Ops.lean ====
section
/-! DEFINITION. The named operations over registers, memory, the call stack and the program counter, fetching an
instruction, drawing a random byte, and TAKING A FAULT (10_state.md, 20_memory.md, 50_cycle_and_scheduler.md R230 to R232,
60_exceptions.md R276 to R278). -/

namespace Sys2Proof.Machine

/-- `V[x]` (R21). -/
def State.reg (s : State) (x : RegIdx) : Byte := s.v[x.toNat]'x.isLt

/-- `V[x] <- b` (R21); the one operation that writes a general register, `VF` included. -/
def State.setReg (s : State) (x : RegIdx) (b : Byte) : State := { s with v := s.v.set x.toNat b x.isLt }

/-- `I <- w` (R24). -/
def State.setI (s : State) (w : Word) : State := { s with i := w }

/-- `PC <- w` (R25). -/
def State.setPc (s : State) (w : Word) : State := { s with pc := w }

/-- The call stack's entries and count replaced (R26). -/
def State.setStack (s : State) (stk : Vector Word 16) (sp : Fin 17) : State := { s with stk := stk, sp := sp }

/-- `DT <- b` (R27). -/
def State.setDt (s : State) (b : Byte) : State := { s with dt := b }

/-- `ST <- b` (R27). -/
def State.setSt (s : State) (b : Byte) : State := { s with st := b }

/-- The keypad snapshot replaced (R28). -/
def State.setKey (s : State) (k : Vector Bool 16) : State := { s with key := k }

/-- The display grid replaced (R29). -/
def State.setPix (s : State) (p : Pixels) : State := { s with pix := p }

/-- Memory replaced (R30). -/
def State.setMem (s : State) (m : Memory) : State := { s with mem := m }

/-- `TACC <- q` (R34). -/
def State.setTacc (s : State) (q : Rat) : State := { s with tacc := q }

/-- `IACC <- q` (R35). -/
def State.setIacc (s : State) (q : Rat) : State := { s with iacc := q }

/-- `RATE <- r` (R36). -/
def State.setRate (s : State) (r : Nat) : State := { s with rate := r }

/-- The count of drawn random bytes replaced (log entry 5). -/
def State.setDraws (s : State) (n : Nat) : State := { s with draws := n }

/-- The state right after reset, for any value of the parameter FONT (R43, R310, R5); with the default it is `State.reset`
(`State.resetWith_default` in Laws/Ops.lean). -/
def State.resetWith (font : Font) : State := State.reset.setMem (Memory.ofFont font)

/-- TAKING A FAULT: `FAULT <- f`, and nothing else is saved or changed (R276). The pc was advanced before, except at a fetch
fault (R277). There is no return from a fault (R278): the only operation that clears `FAULT` is the host's `Reset`
(`hostReset` in Machine/HostOps.lean). -/
def takeFault (f : Fault) (s : State) : State := { s with fault := some f }

/-- An instruction ends: in its result state, or by taking a fault in the state it began in, since every check comes before
the first write (R277). -/
def settle (s : State) : Except Fault State → Host.Outcome State Fault Refusal
  | .ok t => .next t
  | .error f => .next (takeFault f s)

/-- `PC <- PC + 2`: the advance of a step (R232). -/
def advancePc (s : State) : State := s.setPc (s.pc + 2)

/-- The skip mechanism: `PC <- PC + 2` when the condition holds (R129). -/
def skipIf (c : Bool) (s : State) : State := if c then s.setPc (s.pc + 2) else s

/-- `Push(a)` (R26, R123). -/
def pushStack (a : Word) (s : State) : Except Fault State :=
  if h : s.sp.val < 16 then
    .ok (s.setStack (s.stk.set s.sp.val a h) ⟨s.sp.val + 1, Nat.succ_lt_succ h⟩)
  else .error .stackOverflow

/-- `Pop()`, the result in `PC` (R26, R121). The popped entry stays in `STK`, where it has no meaning. -/
def popStack (s : State) : Except Fault State :=
  if h : 0 < s.sp.val then
    have hlt : s.sp.val - 1 < 16 := by omega
    .ok ((s.setStack s.stk ⟨s.sp.val - 1, by omega⟩).setPc (s.stk[s.sp.val - 1]'hlt))
  else .error .stackUnderflow

/-- `MemRead(addr, 1)` (R62). -/
def memRead (a : Nat) (s : State) : Except Fault Byte :=
  if a > 4095 then .error (.outOfRange .memory a) else .ok (Memory.read s.mem a)

/-- `MemWrite(addr, 1, v)` (R63). -/
def memWrite (a : Nat) (b : Byte) (s : State) : Except Fault State :=
  if a > 4095 then .error (.outOfRange .memory a) else .ok (s.setMem (Memory.write s.mem a b))

/-- The whole-range check of a multi-byte instruction: a range of `n > 0` bytes from `a` that passes 4095 is the fault
`OutOfRange(memory, max(a, 4096))` (R67). An empty range is never out of range (R195 (a)). -/
def checkRange (a n : Nat) : Except Fault Unit :=
  if 0 < n ∧ a + n > 4096 then .error (.outOfRange .memory (max a 4096)) else .ok ()

/-- The bytes of a range, after the whole-range check (R67). -/
def readRange (a n : Nat) (s : State) : Except Fault (List Byte) :=
  match checkRange a n with
  | .ok _ => .ok (Memory.readAll s.mem a n)
  | .error f => .error f

/-- Bytes stored to a range, after the whole-range check (R67). -/
def writeRange (a : Nat) (bs : List Byte) (s : State) : Except Fault State :=
  match checkRange a bs.length with
  | .ok _ => .ok (s.setMem (Memory.writeAll s.mem a bs))
  | .error f => .error f

/-- The fetch: two bytes at `PC` and `PC + 1`, big-endian, the address formed without wrap (R231, R64). -/
def fetch (s : State) : Except Fault Word :=
  match memRead s.pc.toNat s with
  | .error f => .error f
  | .ok b0 =>
    match memRead (s.pc.toNat + 1) s with
    | .error f => .error f
    | .ok b1 => .ok (joinBytes b0 b1)

/-- `draw_byte()`: the next byte of the random input (R160). -/
def drawByte (s : State) : Byte × State := (Config.rnd s.draws, s.setDraws (s.draws + 1))

/-- The word at an address pair, stored as memory holds an instruction (R64); what the host uses to place an instruction. -/
def placeBytes (bs : List Byte) (s : State) : State := s.setMem (Memory.writeAll s.mem s.pc.toNat bs)

end Sys2Proof.Machine
end

