-- ==== Sys2Proof/Machine/Flags.lean ====
section
/-! DEFINITION. The flag computations: each arithmetic result with the value of the flag `VF` beside it, and the one
operation that writes both (10_state.md R22, R23; 41_alu.md R141, R148 to R152). -/

namespace Sys2Proof.Machine

/-- The register that is also the flag: `VF = V[15]` (R22). -/
def vfIdx : RegIdx := 0xF

/-- The flag as a byte, 0 or 1 (R22). -/
def flagByte (c : Bool) : Byte := if c then 1 else 0

/-- The sum mod 256 and the carry out (R148). -/
def addCarry (a b : Byte) : Byte × Bool :=
  (BitVec.ofNat 8 ((a.toNat + b.toNat) % 256), decide (a.toNat + b.toNat ≥ 256))

/-- The difference mod 256 and NOT borrow (R149, R151). -/
def subNoBorrow (a b : Byte) : Byte × Bool :=
  (BitVec.ofNat 8 ((a.toNat + 256 - b.toNat) % 256), decide (a.toNat ≥ b.toNat))

/-- The logical right shift by one and bit 0 before it (R150). -/
def shiftRightOut (a : Byte) : Byte × Bool := (BitVec.ofNat 8 (a.toNat / 2), a.getLsbD 0)

/-- The left shift by one mod 256 and bit 7 before it (R152). -/
def shiftLeftOut (a : Byte) : Byte × Bool := (BitVec.ofNat 8 (2 * a.toNat % 256), a.getLsbD 7)

/-- First the result to `V[x]`, then the flag to `VF`, so that with `x = 15` the flag remains (R141, the spec's decision D5).
Both operands were read before. -/
def setResultFlag (x : RegIdx) (r : Byte × Bool) (s : State) : State := (s.setReg x r.1).setReg vfIdx (flagByte r.2)

end Sys2Proof.Machine
end

