-- ==== Sys2Proof/Machine/Alu.lean ====
section
/-! DEFINITION. Register loads, arithmetic, logic, shifts, random (41_alu.md). None of these can fault (R140). -/

namespace Sys2Proof.Machine

/-- `6xnn` (R142). -/
def execLdImm (x : RegIdx) (nn : Byte) (s : State) : Host.Outcome State Fault Refusal := .next (s.setReg x nn)

/-- `7xnn`: wraps, no flag (R143). -/
def execAddImm (x : RegIdx) (nn : Byte) (s : State) : Host.Outcome State Fault Refusal :=
  .next (s.setReg x (s.reg x + nn))

/-- `8xy0` (R144). -/
def execLdReg (x y : RegIdx) (s : State) : Host.Outcome State Fault Refusal := .next (s.setReg x (s.reg y))

/-- `8xy1`: `VF` is not written as a flag (R145, the spec's decision D6). -/
def execOrReg (x y : RegIdx) (s : State) : Host.Outcome State Fault Refusal :=
  .next (s.setReg x (s.reg x ||| s.reg y))

/-- `8xy2`: `VF` is not written as a flag (R146, the spec's decision D6). -/
def execAndReg (x y : RegIdx) (s : State) : Host.Outcome State Fault Refusal :=
  .next (s.setReg x (s.reg x &&& s.reg y))

/-- `8xy3`: `VF` is not written as a flag (R147, the spec's decision D6). -/
def execXorReg (x y : RegIdx) (s : State) : Host.Outcome State Fault Refusal :=
  .next (s.setReg x (s.reg x ^^^ s.reg y))

/-- `8xy4` (R148). -/
def execAddReg (x y : RegIdx) (s : State) : Host.Outcome State Fault Refusal :=
  .next (setResultFlag x (addCarry (s.reg x) (s.reg y)) s)

/-- `8xy5` (R149). -/
def execSubReg (x y : RegIdx) (s : State) : Host.Outcome State Fault Refusal :=
  .next (setResultFlag x (subNoBorrow (s.reg x) (s.reg y)) s)

/-- `8xy6`: shifts `V[x]` in place, `y` is not used (R150, the spec's decision D4). -/
def execShr (x : RegIdx) (s : State) : Host.Outcome State Fault Refusal :=
  .next (setResultFlag x (shiftRightOut (s.reg x)) s)

/-- `8xy7` (R151). -/
def execSubnReg (x y : RegIdx) (s : State) : Host.Outcome State Fault Refusal :=
  .next (setResultFlag x (subNoBorrow (s.reg y) (s.reg x)) s)

/-- `8xyE`: shifts `V[x]` in place, `y` is not used (R152, the spec's decision D4). -/
def execShl (x : RegIdx) (s : State) : Host.Outcome State Fault Refusal :=
  .next (setResultFlag x (shiftLeftOut (s.reg x)) s)

/-- `Cxnn`: the next free byte masked by `nn` (R161, R160). -/
def execRnd (x : RegIdx) (nn : Byte) (s : State) : Host.Outcome State Fault Refusal :=
  .next ((drawByte s).2.setReg x ((drawByte s).1 &&& nn))

end Sys2Proof.Machine
end

