-- ==== Sys2Proof/Machine/Operands.lean ====
section
/-! DEFINITION. The operand forms: immediates, effective addresses, register ranges, glyph addresses, decimal digits, key
lookups (30_encoding.md R98; 42_index_memory.md R170 to R176; 44_keypad_timers.md R211, R214). -/

namespace Sys2Proof.Machine

/-- An `nnn` as a 16-bit value: unsigned, no scaling (R98). -/
def addrWord (nnn : Addr) : Word := nnn.setWidth 16

/-- An 8-bit value as a 16-bit one, unsigned (R6). -/
def byteWord (b : Byte) : Word := b.setWidth 16

/-- The effective address `I + k`, an unbounded integer (R61, R170). -/
def indexAddr (s : State) (k : Nat) : Nat := s.i.toNat + k

/-- How many registers the inclusive range `V0..Vx` names (R175, R176). -/
def rangeCount (x : RegIdx) : Nat := x.toNat + 1

/-- The values of `V0..Vx`, in ascending order (R175). -/
def regsUpTo (x : RegIdx) (s : State) : List Byte :=
  (List.range (rangeCount x)).map (fun k => s.reg (BitVec.ofNat 4 k))

/-- `V[k] <- ` the bytes, `k` ascending from the given index (R176). -/
def setRegsFrom : Nat → List Byte → State → State
  | _, [], s => s
  | k, b :: bs, s => setRegsFrom (k + 1) bs (s.setReg (BitVec.ofNat 4 k) b)

/-- `V[x] * 5`, not masked to a nibble (R173). -/
def glyphAddr (b : Byte) : Word := byteWord b * 5

/-- The three decimal digits: hundreds, tens, ones (R174). -/
def decimalDigits (b : Byte) : List Byte :=
  [BitVec.ofNat 8 (b.toNat / 100), BitVec.ofNat 8 (b.toNat / 10 % 10), BitVec.ofNat 8 (b.toNat % 10)]

/-- `KEY[k]` for a full 8-bit index; an index above 15 is `OutOfRange(keypad, k)` (R211, the spec's decision D10). -/
def keyAt (k : Byte) (s : State) : Except Fault Bool :=
  if h : k.toNat < 16 then .ok (s.key[k.toNat]'h) else .error (.outOfRange .keypad k.toNat)

/-- The smallest pressed key, scanning 0 to 15 upwards (R214). -/
def lowestKey (s : State) : Option (Fin 16) := (List.finRange 16).find? (fun k => s.key[k.val]'k.isLt)

end Sys2Proof.Machine
end

