-- ==== Sys2Proof/Machine/Display.lean ====
section
/-! DEFINITION. The display controller's primitives, the two display instructions and the presentation buffer
(43_display.md; 10_state.md R29, R42). -/

namespace Sys2Proof.Machine

/-- `IsOn(px, py)`: coordinates wrap (R192). -/
def Pixels.isOn (p : Pixels) (px py : Nat) : Bool :=
  (p[py % 32]'(Nat.mod_lt _ (by decide)))[px % 64]'(Nat.mod_lt _ (by decide))

/-- `TogglePixel(px, py)`: coordinates wrap, one cell flips (R191). -/
def Pixels.toggle (p : Pixels) (px py : Nat) : Pixels :=
  p.set (py % 32)
    ((p[py % 32]'(Nat.mod_lt _ (by decide))).set (px % 64) (!p.isOn px py) (Nat.mod_lt _ (by decide)))
    (Nat.mod_lt _ (by decide))

/-- The draw in progress: the grid and whether a pixel that was on has been toggled (R195). -/
abbrev Drawing := Pixels × Bool

/-- One bit of a sprite row: column `col` is bit `7 - col`, so bit 7 is the leftmost pixel (R195 (b)). -/
def drawBit (b : Byte) (px py : Nat) (d : Drawing) (col : Nat) : Drawing :=
  if b.getLsbD (7 - col) then (d.1.toggle (px + col) py, d.2 || d.1.isOn (px + col) py) else d

/-- One sprite row, columns 0 to 7 (R195). -/
def drawRow (b : Byte) (px py : Nat) (d : Drawing) : Drawing := (List.range 8).foldl (drawBit b px py) d

/-- The rows of a sprite, downwards from `py` (R195). -/
def drawRows : List Byte → Nat → Nat → Drawing → Drawing
  | [], _, _, d => d
  | b :: bs, px, py, d => drawRows bs px (py + 1) (drawRow b px py d)

/-- A whole sprite: `VF` starts cleared, and the position is sampled once, before that (R194, the spec's decision D7). -/
def drawSprite (rows : List Byte) (px py : Nat) (s : State) : State :=
  let d := drawRows rows px py (s.pix, false)
  (s.setReg vfIdx (flagByte d.2)).setPix d.1

/-- `00E0`: `Clear()` (R190, R193). -/
def execCls (s : State) : Host.Outcome State Fault Refusal := .next (s.setPix Pixels.blank)

/-- `Dxyn` (R195). -/
def execDrw (x y : RegIdx) (n : Nibble) (s : State) : Host.Outcome State Fault Refusal :=
  settle s ((readRange (indexAddr s 0) n.toNat s).map
    (fun rows => drawSprite rows (s.reg x).toNat (s.reg y).toNat s))

/-- `PRES[cx, cy]`, computed from the grid (R42). -/
def Pixels.color (p : Pixels) (cx cy : Nat) : Rgb := if p.isOn cx cy then Config.colorOn else Config.colorOff

/-- The three bytes of a pixel in the order red, green, blue (R42). -/
def rgbBytes (c : Rgb) : List Byte := [c.red, c.green, c.blue]

/-- `PRES` as 6144 bytes, the triple of pixel (`cx`, `cy`) at offset `(cy * 64 + cx) * 3`. The layout is PRESUMED (log entry
13): the spec marks it as general knowledge, decision D22 (R42). -/
def presentation (p : Pixels) : List Byte :=
  (List.range 2048).flatMap (fun k => rgbBytes (p.color (k % 64) (k / 64)))

end Sys2Proof.Machine
end

