-- ==== Sys2Proof/Machine/Flow.lean ====
section
/-! DEFINITION. Control transfer: return, jump, call, computed jump, skips (40_flow.md). When a meaning starts, `PC` already
holds the instruction's address plus 2 (R120). -/

namespace Sys2Proof.Machine

/-- `00EE` (R121). -/
def execRet (s : State) : Host.Outcome State Fault Refusal := settle s (popStack s)

/-- `1nnn` (R122). -/
def execJp (nnn : Addr) (s : State) : Host.Outcome State Fault Refusal := .next (s.setPc (addrWord nnn))

/-- `2nnn` (R123). -/
def execCall (nnn : Addr) (s : State) : Host.Outcome State Fault Refusal :=
  settle s ((pushStack s.pc s).map (·.setPc (addrWord nnn)))

/-- `3xnn` (R125). -/
def execSeImm (x : RegIdx) (nn : Byte) (s : State) : Host.Outcome State Fault Refusal :=
  .next (skipIf (s.reg x == nn) s)

/-- `4xnn` (R126). -/
def execSneImm (x : RegIdx) (nn : Byte) (s : State) : Host.Outcome State Fault Refusal :=
  .next (skipIf (s.reg x != nn) s)

/-- `5xy0` (R127). -/
def execSeReg (x y : RegIdx) (s : State) : Host.Outcome State Fault Refusal :=
  .next (skipIf (s.reg x == s.reg y) s)

/-- `9xy0` (R128). -/
def execSneReg (x y : RegIdx) (s : State) : Host.Outcome State Fault Refusal :=
  .next (skipIf (s.reg x != s.reg y) s)

/-- `Bnnn`: `PC <- nnn + V[0]`, no masking, no wrap (R124). -/
def execJpV0 (nnn : Addr) (s : State) : Host.Outcome State Fault Refusal :=
  .next (s.setPc (addrWord nnn + byteWord (s.reg 0)))

end Sys2Proof.Machine
end

