-- ==== Sys2Proof/Machine/IndexMemory.lean ====
section
/-! DEFINITION. Index register and memory instructions (42_index_memory.md). The memory instructions check their whole range
before any access (20_memory.md R67) and leave `I` unchanged (R170, the spec's decision D8). -/

namespace Sys2Proof.Machine

/-- `Annn` (R171). -/
def execLdI (nnn : Addr) (s : State) : Host.Outcome State Fault Refusal := .next (s.setI (addrWord nnn))

/-- `Fx1E`: modulo 65536, no flag (R172). -/
def execAddI (x : RegIdx) (s : State) : Host.Outcome State Fault Refusal :=
  .next (s.setI (s.i + byteWord (s.reg x)))

/-- `Fx29` (R173). -/
def execLdFont (x : RegIdx) (s : State) : Host.Outcome State Fault Refusal := .next (s.setI (glyphAddr (s.reg x)))

/-- `Fx33` (R174). -/
def execLdBcd (x : RegIdx) (s : State) : Host.Outcome State Fault Refusal :=
  settle s (writeRange (indexAddr s 0) (decimalDigits (s.reg x)) s)

/-- `Fx55` (R175). -/
def execStoreRegs (x : RegIdx) (s : State) : Host.Outcome State Fault Refusal :=
  settle s (writeRange (indexAddr s 0) (regsUpTo x s) s)

/-- `Fx65` (R176). -/
def execLoadRegs (x : RegIdx) (s : State) : Host.Outcome State Fault Refusal :=
  settle s ((readRange (indexAddr s 0) (rangeCount x) s).map (fun bs => setRegsFrom 0 bs s))

end Sys2Proof.Machine
end

