-- ==== Sys2Proof/Machine/KeypadTimers.lean ====
section
/-! DEFINITION. Keypad and timer instructions (44_keypad_timers.md). -/

namespace Sys2Proof.Machine

/-- `Ex9E` (R212). -/
def execSkp (x : RegIdx) (s : State) : Host.Outcome State Fault Refusal :=
  settle s ((keyAt (s.reg x) s).map (fun pressed => skipIf pressed s))

/-- `ExA1` (R213). -/
def execSknp (x : RegIdx) (s : State) : Host.Outcome State Fault Refusal :=
  settle s ((keyAt (s.reg x) s).map (fun pressed => skipIf (!pressed) s))

/-- `Fx07` (R215). -/
def execLdRegDt (x : RegIdx) (s : State) : Host.Outcome State Fault Refusal := .next (s.setReg x s.dt)

/-- `Fx0A`: the lowest pressed key, or `PC <- PC - 2` so that the same instruction runs again (R214). -/
def execLdKey (x : RegIdx) (s : State) : Host.Outcome State Fault Refusal :=
  match lowestKey s with
  | some k => .next (s.setReg x (BitVec.ofNat 8 k.val))
  | none => .next (s.setPc (s.pc - 2))

/-- `Fx15` (R216). -/
def execLdDt (x : RegIdx) (s : State) : Host.Outcome State Fault Refusal := .next (s.setDt (s.reg x))

/-- `Fx18` (R217). -/
def execLdSt (x : RegIdx) (s : State) : Host.Outcome State Fault Refusal := .next (s.setSt (s.reg x))

end Sys2Proof.Machine
end

