-- ==== Sys2Proof/Machine/Step.lean ====
section
/-! DEFINITION. The step: fetch, advance the pc, decode, execute (50_cycle_and_scheduler.md R230 to R234), and the placing of
an instruction where the next step fetches it. -/

namespace Sys2Proof.Machine

/-- Decode and execute of a fetched word, in a state whose pc was advanced: a word that is none of the 34 instructions takes
the fault `InvalidOpcode(op)` (R233, R102). -/
def runWord (op : Word) (s : State) : Host.Outcome State Fault Refusal :=
  match decodeWord op with
  | .ok i => exec i s
  | .error _ => .next (takeFault (.invalidOpcode op) s)

/-- `Step()` (R230). A core whose `FAULT` is set has no step: it has stopped, with the latched fault (R278, R254). A fetch
fault is taken before the pc advance (R231). -/
def step (s : State) : Host.Outcome State Fault Refusal :=
  match s.fault with
  | some f => .fault f
  | none =>
    match fetch s with
    | .error f => .next (takeFault f s)
    | .ok op => runWord op (advancePc s)

/-- The instruction whose opcode-table bits are `w` stored at the pc, where `step` fetches its next instruction (log entry
2). Nothing but the two bytes of memory changes. -/
def State.withFetchWord (s : State) (nbits w : Nat) : State := placeBytes (tableBytes nbits w) s

end Sys2Proof.Machine
end

