-- ==== Sys2Proof/Machine/Scheduler.lean ====
section
/-! DEFINITION. The scheduler: the timer drain loop and the instruction drain loop of one `Tick`
(50_cycle_and_scheduler.md R240 to R245). Time is an exact rational number of seconds (the spec's decision D19). -/

namespace Sys2Proof.Machine

/-- One period of the timers, `1/60` s (R242). -/
def timerPeriod : Rat := 1 / 60

/-- One period of the instructions, `1/RATE` s (R243). -/
def stepPeriod (s : State) : Rat := 1 / (s.rate : Rat)

/-- A timer counts down and stays at 0 (R27, R242). -/
def decTimer (b : Byte) : Byte := if b = 0 then 0 else b - 1

/-- One iteration of the timer drain loop (R242). -/
def timerIteration (s : State) : State :=
  ((s.setDt (decTimer s.dt)).setSt (decTimer s.st)).setTacc (s.tacc - timerPeriod)

/-- The timer drain loop with a bound on its iterations; the condition is `TACC >= 1/60` (R242). -/
def timerLoop : Nat → State → State
  | 0, s => s
  | k + 1, s => if s.tacc ≥ timerPeriod then timerLoop k (timerIteration s) else s

/-- `TACC <- TACC + dt`, then the loop, for which `floor(60 * TACC)` iterations are enough (R242). -/
def timerDrain (elapsed : Rat) (s : State) : State :=
  timerLoop ⌊60 * (s.tacc + elapsed)⌋₊ (s.setTacc (s.tacc + elapsed))

/-- How an instruction drain loop ended. -/
inductive DrainEnd where
  /-- The accumulator holds less than one period. -/
  | drained
  /-- A step took a fault; its period is not subtracted (R245). -/
  | faulted (f : Fault)
  /-- A step was refused; no instruction of this core is refused, so this does not occur. -/
  | refused (r : Refusal)
  deriving DecidableEq, Repr

/-- The instruction drain loop with a bound on its iterations; the condition is `IACC >= 1/RATE` (R243). A fault stops it at
once (R245). -/
def stepLoop : Nat → State → DrainEnd × State
  | 0, s => (.drained, s)
  | k + 1, s =>
    if s.iacc ≥ stepPeriod s then
      match step s with
      | .next t =>
        match t.fault with
        | some f => (.faulted f, t)
        | none => stepLoop k (t.setIacc (t.iacc - stepPeriod t))
      | .fault f => (.faulted f, s)
      | .refused r => (.refused r, s)
    else (.drained, s)

/-- `IACC <- IACC + dt`, then the loop, for which `floor(RATE * IACC)` iterations are enough (R243). -/
def stepDrain (elapsed : Rat) (s : State) : DrainEnd × State :=
  stepLoop ⌊(s.rate : Rat) * (s.iacc + elapsed)⌋₊ (s.setIacc (s.iacc + elapsed))

/-- The body of a `Tick` of a running core: first all timer decrements that are due, then all instructions that are due
(R241, `90_conflicts.md` C4). -/
def tickBody (elapsed : Rat) (s : State) : DrainEnd × State := stepDrain elapsed (timerDrain elapsed s)

end Sys2Proof.Machine
end

