-- ==== Sys2Proof/Machine/HostOps.lean ====
section
/-! DEFINITION. The host's six operations, each one transition of the whole core (50_cycle_and_scheduler.md R246 to R254;
70_reset_and_hazards.md R310). -/

namespace Sys2Proof.Machine

/-- The operations of R252, with their inputs. -/
inductive HostOp where
  | reset
  | loadProgram (bytes : List Byte)
  | setKeys (keys : Vector Bool 16)
  | setInstructionRate (rate : Rat)
  | tick (elapsed : Rat)
  | readDisplay
  deriving DecidableEq, Repr

/-- What an operation reports to the host (R252). -/
inductive HostReply where
  /-- Done. -/
  | success
  /-- The fault the operation met, or the one that is latched (R245, R254). -/
  | fault (f : Fault)
  /-- `LoadProgram` was given more than 3584 bytes; not latched (R246, R275). -/
  | programTooLarge
  /-- `SetInstructionRate` was given no integer from 1 to 65535 (R249, the spec's decision D20). -/
  | rateRefused
  /-- `Tick` was given a negative time (R240). -/
  | timeRefused
  /-- A step was refused within a `Tick`; it does not occur (see `DrainEnd.refused`). -/
  | stepRefused (r : Refusal)
  /-- The presentation buffer (R250). -/
  | display (bytes : List Byte)
  deriving DecidableEq, Repr

/-- `Reset()`: every piece of state the spec gives the core at its reset value, the font region from the parameter FONT, which
the model takes as an argument (R310, R311, R5). The count of drawn random bytes goes
on, so that nothing is promised about the bytes drawn after a reset (R160; log entry 6). -/
def hostReset (font : Font) (s : State) : HostReply × State := (.success, (State.resetWith font).setDraws s.draws)

/-- `LoadProgram(bytes)` on a running core (R246). -/
def loadProgram (bytes : List Byte) (s : State) : HostReply × State :=
  if bytes.length > 3584 then (.programTooLarge, s)
  else (.success, s.setMem (Memory.writeAll s.mem 0x200 bytes))

/-- `SetKeys(k)` on a running core (R248). -/
def setKeys (keys : Vector Bool 16) (s : State) : HostReply × State := (.success, s.setKey keys)

/-- `SetInstructionRate(r)` on a running core: an integer from 1 to 65535 is accepted, any other request is refused
(R249). -/
def setInstructionRate (r : Rat) (s : State) : HostReply × State :=
  if r.den = 1 ∧ 1 ≤ r.num ∧ r.num ≤ 65535 then (.success, s.setRate r.num.toNat) else (.rateRefused, s)

/-- `Tick(dt)` on a running core: the drain loops, and success or the fault they met (R240, R241, R245). -/
def tick (elapsed : Rat) (s : State) : HostReply × State :=
  if elapsed < 0 then (.timeRefused, s)
  else
    match tickBody elapsed s with
    | (.drained, t) => (.success, t)
    | (.faulted f, t) => (.fault f, t)
    | (.refused r, t) => (.stepRefused r, t)

/-- `ReadDisplay()`: the presentation buffer; nothing changes (R250). -/
def readDisplay (s : State) : HostReply × State := (.display (presentation s.pix), s)

/-- An operation that a faulted core does not carry out: it reports the latched fault and changes nothing (R254). -/
def whileRunning (s : State) (r : HostReply × State) : HostReply × State :=
  match s.fault with
  | some f => (.fault f, s)
  | none => r

/-- One host operation, run to completion (R239, R251, R252), of a core whose parameter FONT is `font`; only `Reset` looks at
it. -/
def hostStep (font : Font) (op : HostOp) (s : State) : HostReply × State :=
  match op with
  | .reset => hostReset font s
  | .loadProgram bytes => whileRunning s (loadProgram bytes s)
  | .setKeys keys => whileRunning s (setKeys keys s)
  | .setInstructionRate r => whileRunning s (setInstructionRate r s)
  | .tick elapsed => whileRunning s (tick elapsed s)
  | .readDisplay => readDisplay s

end Sys2Proof.Machine
end

