-- ==== Sys2Proof/Safety.lean ====
section
/-! DEFINITION. What counts as a safe run, and the terms claims are stated in: the invariant of every reachable state
(10_state.md R44), reachability under the host's operations, and the predicates that say what an instruction leaves
unchanged. -/

namespace Sys2Proof.Machine

/-- A running core: no fault is latched (R37). -/
abbrev State.running (s : State) : Prop := s.fault = none

/-- The invariant of every reachable state (R44; `TACC < 1/60` is R34's): canonical memory, the bound on the pc (R25), every
live return address a value that some `2nnn` pushed, the range of the rate, and no negative accumulator. The bounds on the
registers, `I`, `SP` and the timers are in the types. -/
abbrev State.Inv (s : State) : Prop :=
  Memory.wf s.mem ∧ s.pc.toNat ≤ 0x10FE ∧
  (∀ k : Fin 16, k.val < s.sp.val → 2 ≤ (s.stk[k.val]'k.isLt).toNat ∧ (s.stk[k.val]'k.isLt).toNat ≤ 4096) ∧
  (1 ≤ s.rate ∧ s.rate ≤ 65535) ∧ (0 ≤ s.tacc ∧ s.tacc < 1 / 60) ∧ 0 ≤ s.iacc

/-- The states between two host operations: those that some sequence of operations from reset leads to, each run to completion
before the next (R44, R251, R252), in a core whose parameter FONT is `font`. Only here does the host have a move. -/
inductive BetweenOps (font : Font) : State → Prop where
  | reset : BetweenOps font (State.resetWith font)
  | host (s : State) (op : HostOp) : BetweenOps font s → BetweenOps font (hostStep font op s).2

/-- The reachable states: those between two host operations, those within a `Tick`, after its timer decay and up to `k` of its
instructions (R241, R243), and those that bare steps of the core lead to from there (R230). The host has no move in the
latter two kinds (R251). That bare steps, outside a `Tick`'s accounting of time, are followed too is the model's choice (log
entry 29, DESIGN CHOICE). -/
inductive Reachable (font : Font) : State → Prop where
  | between (s : State) : BetweenOps font s → Reachable font s
  | inTick (s : State) (elapsed : Rat) (k : Nat) : BetweenOps font s → s.fault = none → 0 ≤ elapsed →
    Reachable font (stepLoop k ((timerDrain elapsed s).setIacc ((timerDrain elapsed s).iacc + elapsed))).2
  | step (s t : State) : Reachable font s → Machine.step s = .next t → Reachable font t

/-- A finished program: the pc points at a `1nnn` to its own address and no fault is latched. The model's definition, not
the hardware's (R256, D27; log entry 11). -/
def State.atSelfJump (s : State) : Bool :=
  s.fault == none &&
    match fetch s with
    | .ok op =>
      match decodeWord op with
      | .ok (.jp nnn) => addrWord nnn == s.pc
      | _ => false
    | .error _ => false

/-- Every general register but those listed is unchanged. -/
def SameRegsBut (rs : List RegIdx) (s t : State) : Prop := ∀ r, r ∉ rs → t.reg r = s.reg r

/-- Every byte of memory is unchanged. -/
def SameMemory (s t : State) : Prop := ∀ a, Memory.read t.mem a = Memory.read s.mem a

/-- Every byte of memory outside the `n` bytes from `a` is unchanged. -/
def SameMemoryOutside (a n : Nat) (s t : State) : Prop :=
  ∀ b, ¬(a ≤ b ∧ b < a + n) → Memory.read t.mem b = Memory.read s.mem b

/-- The call stack is unchanged. -/
def SameStack (s t : State) : Prop := t.stk = s.stk ∧ t.sp = s.sp

/-- Both timers are unchanged. -/
def SameTimers (s t : State) : Prop := t.dt = s.dt ∧ t.st = s.st

/-- What no completed instruction writes is unchanged: the keypad, the accumulators, the rate and the fault latch. -/
def SameOutside (s t : State) : Prop :=
  t.key = s.key ∧ t.tacc = s.tacc ∧ t.iacc = s.iacc ∧ t.rate = s.rate ∧ t.fault = s.fault

/-- All but the general registers is unchanged, and of those only the listed ones may change. -/
def OnlyRegs (rs : List RegIdx) (s t : State) : Prop :=
  SameRegsBut rs s t ∧ t.i = s.i ∧ t.pc = s.pc ∧ SameStack s t ∧ SameTimers s t ∧ t.pix = s.pix ∧ SameMemory s t ∧
  SameOutside s t ∧ t.draws = s.draws

/-- All but the pc is unchanged. -/
def OnlyPc (s t : State) : Prop := { t with pc := s.pc } = s

/-- All but the index register is unchanged. -/
def OnlyI (s t : State) : Prop := { t with i := s.i } = s

/-- All but memory is unchanged, and of that only the `n` bytes from `a` may change. -/
def OnlyMemory (a n : Nat) (s t : State) : Prop := { t with mem := s.mem } = s ∧ SameMemoryOutside a n s t

/-- The execute-time fault an instruction raises in a state, or none (60_exceptions.md R280). -/
def executeFault (i : Instr) (s : State) : Option Fault :=
  match i with
  | .ret => if s.sp.val = 0 then some .stackUnderflow else none
  | .call _ => if s.sp.val = 16 then some .stackOverflow else none
  | .drw _ _ n =>
    if 0 < n.toNat ∧ s.i.toNat + n.toNat - 1 > 4095 then some (.outOfRange .memory (max s.i.toNat 4096)) else none
  | .ldBcd _ => if s.i.toNat + 2 > 4095 then some (.outOfRange .memory (max s.i.toNat 4096)) else none
  | .storeRegs x => if s.i.toNat + x.toNat > 4095 then some (.outOfRange .memory (max s.i.toNat 4096)) else none
  | .loadRegs x => if s.i.toNat + x.toNat > 4095 then some (.outOfRange .memory (max s.i.toNat 4096)) else none
  | .skp x => if (s.reg x).toNat > 15 then some (.outOfRange .keypad (s.reg x).toNat) else none
  | .sknp x => if (s.reg x).toNat > 15 then some (.outOfRange .keypad (s.reg x).toNat) else none
  | .cls | .jp _ | .seImm _ _ | .sneImm _ _ | .seReg _ _ | .ldImm _ _ | .addImm _ _ | .ldReg _ _ | .orReg _ _
  | .andReg _ _ | .xorReg _ _ | .addReg _ _ | .subReg _ _ | .shr _ _ | .subnReg _ _ | .shl _ _ | .sneReg _ _ | .ldI _
  | .jpV0 _ | .rnd _ _ | .ldRegDt _ | .ldKey _ | .ldDt _ | .ldSt _ | .addI _ | .ldFont _ => none

/-- How many bytes an instruction stores from `I` upwards (20_memory.md R66). -/
def storedCount (i : Instr) : Nat :=
  match i with
  | .ldBcd _ => 3
  | .storeRegs x => x.toNat + 1
  | .cls | .ret | .jp _ | .call _ | .seImm _ _ | .sneImm _ _ | .seReg _ _ | .ldImm _ _ | .addImm _ _ | .ldReg _ _
  | .orReg _ _ | .andReg _ _ | .xorReg _ _ | .addReg _ _ | .subReg _ _ | .shr _ _ | .subnReg _ _ | .shl _ _
  | .sneReg _ _ | .ldI _ | .jpV0 _ | .rnd _ _ | .drw _ _ _ | .skp _ | .sknp _ | .ldRegDt _ | .ldKey _ | .ldDt _
  | .ldSt _ | .addI _ | .ldFont _ | .loadRegs _ => 0

/-- The general registers an instruction may write: its destination `x`, the range `V0..Vx` of `Fx65`, and `VF` for the six
flag writers (10_state.md R22, R23). -/
def writtenRegs (i : Instr) : List RegIdx :=
  match i with
  | .ldImm x _ | .addImm x _ | .ldReg x _ | .orReg x _ | .andReg x _ | .xorReg x _ | .rnd x _ | .ldRegDt x
  | .ldKey x => [x]
  | .addReg x _ | .subReg x _ | .shr x _ | .subnReg x _ | .shl x _ => [x, vfIdx]
  | .drw _ _ _ => [vfIdx]
  | .loadRegs x => (List.range (x.toNat + 1)).map (BitVec.ofNat 4)
  | .cls | .ret | .jp _ | .call _ | .seImm _ _ | .sneImm _ _ | .seReg _ _ | .sneReg _ _ | .ldI _ | .jpV0 _ | .skp _
  | .sknp _ | .ldDt _ | .ldSt _ | .addI _ | .ldFont _ | .ldBcd _ | .storeRegs _ => []

/-- A sprite bit that is 1 lands on pixel (`cx`, `cy`): the sprite's rows are `rows` and it is drawn from (`px`, `py`)
(43_display.md R195). -/
def spriteCovers (rows : List Byte) (px py cx cy : Nat) : Bool :=
  (List.range rows.length).any (fun row => (List.range 8).any (fun col =>
    (rows.getD row 0).getLsbD (7 - col) && (px + col) % 64 == cx && (py + row) % 32 == cy))

end Sys2Proof.Machine
end

