-- ==== Sys2Proof/Certificates/Slice0/Obligations.lean ====
section
/-! DEFINITION. The statements about the machine, written from the numbered rules of spec/ (OBLIGATIONS.json lists them).
A statement that rests on one of the spec's own decisions (92_eei_decisions.md D1 to D29) or on a choice of this model
says so in its docstring. -/

open Sys2Proof Sys2Proof.Machine

/-! ## Encoding -/

/-- Decoding the bytes of any instruction gives that instruction and leaves the bytes after it (R90 to R99). -/
def Obligations.DecodeOfEncodeIsTheInstruction : Prop :=
  ∀ (i : Instr) (rest : List Byte), decode (encodeBytes i ++ rest) = .ok (i, rest)

/-- A word has one reading: an instruction it decodes to encodes to that word again, so no bit of a legal word is dropped
(the formats of R91 to R96). For `8xy6` and `8xyE` this is the model's choice (log entry 12, DESIGN CHOICE): the spec says
only that their `y` field is decoded but not used (R94), and the model keeps that field in the instruction. -/
def Obligations.EncodeOfDecodeIsTheWord : Prop :=
  ∀ (w : Word) (i : Instr), decodeWord w = .ok i → encode i = w

/-- The decoder accepts exactly the words that some row of the table accepts, each under a row of its own, and answers
`InvalidOpcode` with the word for every other; the table has 34 rows and no word matches two of them (R97, R99, R100). -/
def Obligations.DecoderAcceptsExactlyTheTable : Prop :=
  opcodeRows.length = 34 ∧
  (∀ (w : Word) (r q : Row), r ∈ opcodeRows → q ∈ opcodeRows → r.accepts w = true → q.accepts w = true → r = q) ∧
  ∀ w : Word,
    (wordWellFormed w = true → ∃ i, decodeWord w = .ok i ∧ i.row.accepts w = true) ∧
    (wordWellFormed w = false → decodeWord w = .error (.invalidOpcode w))

/-- The illegal words, family by family, as the table of R100 lists them. The strict match in families 0, 5, 9 and E is the
spec's decision D9. -/
def Obligations.IllegalWordsFamilyByFamily : Prop :=
  ∀ w : Word, decodeWord w = .error (.invalidOpcode w) ↔
    (fieldFamily w = 0x0 ∧ w ≠ 0x00E0 ∧ w ≠ 0x00EE) ∨
    (fieldFamily w = 0x5 ∧ fieldN w ≠ 0) ∨
    (fieldFamily w = 0x8 ∧ fieldN w ∈ ([0x8, 0x9, 0xA, 0xB, 0xC, 0xD, 0xF] : List Nibble)) ∨
    (fieldFamily w = 0x9 ∧ fieldN w ≠ 0) ∨
    (fieldFamily w = 0xE ∧ fieldNN w ∉ ([0x9E, 0xA1] : List Byte)) ∨
    (fieldFamily w = 0xF ∧ fieldNN w ∉ ([0x07, 0x0A, 0x15, 0x18, 0x1E, 0x29, 0x33, 0x55, 0x65] : List Byte))

/-- A few words, written out from the spec's decoding vectors (95_test_vectors.md T-DEC), decode as listed there. -/
def Obligations.SampleWordsDecodeAsListed : Prop :=
  decodeWord 0x00E0 = .ok .cls ∧ decodeWord 0x00EE = .ok .ret ∧ decodeWord 0x0000 = .error (.invalidOpcode 0x0000) ∧
  decodeWord 0x1ABC = .ok (.jp 0xABC) ∧ decodeWord 0x5120 = .ok (.seReg 1 2) ∧
  decodeWord 0x5121 = .error (.invalidOpcode 0x5121) ∧ decodeWord 0x9AB0 = .ok (.sneReg 0xA 0xB) ∧
  decodeWord 0xBFFF = .ok (.jpV0 0xFFF) ∧ decodeWord 0xCF00 = .ok (.rnd 0xF 0x00) ∧
  decodeWord 0xE1A1 = .ok (.sknp 1) ∧ decodeWord 0xFF65 = .ok (.loadRegs 0xF)

/-! ## The step -/

/-- When the core runs and the two bytes at the pc, the first the higher one, decode to an instruction, the step is that
instruction executed in the state with the pc advanced by 2 and nothing else changed (R230 to R234). -/
def Obligations.StepRunsTheDecodedInstruction : Prop :=
  ∀ (s : State) (i : Instr), s.fault = none → s.pc.toNat ≤ 4094 →
    decode [Memory.read s.mem s.pc.toNat, Memory.read s.mem (s.pc.toNat + 1)] = .ok (i, []) →
    Machine.step s = exec i { s with pc := s.pc + 2 }

/-- A fetched word that is none of the 34 instructions raises `InvalidOpcode` with the word; the only other change since the
start of the step is the pc's advance by 2 (R102, R233). -/
def Obligations.IllegalWordFaultsAfterTheAdvance : Prop :=
  ∀ (s : State) (op : Word), s.fault = none → s.pc.toNat ≤ 4094 →
    op = Memory.read s.mem s.pc.toNat ++ Memory.read s.mem (s.pc.toNat + 1) → wordWellFormed op = false →
    Machine.step s = .next { s with pc := s.pc + 2, fault := some (.invalidOpcode op) }

/-- A fetch past the end of memory raises `OutOfRange` with the lowest address that does not exist; the pc still holds the
address that could not be fetched (R231; the spec's decision D13). -/
def Obligations.FetchPastMemoryFaults : Prop :=
  ∀ s : State, s.fault = none → 4095 ≤ s.pc.toNat →
    Machine.step s = .next { s with fault := some (.outOfRange .memory (max s.pc.toNat 4096)) }

/-- A running core always takes a step: no instruction is refused and no step of a running core stops the machine without
a next state. -/
def Obligations.RunningCoreAlwaysSteps : Prop :=
  ∀ s : State, s.fault = none → ∃ t, Machine.step s = .next t

/-- A faulted core has no step: it answers the latched fault, and so does every number of steps (R278; the spec's decision
D14, log entry 3). -/
def Obligations.FaultedCoreHasNoStep : Prop :=
  ∀ (s : State) (f : Fault) (k : Nat), s.fault = some f → Host.Core.run Sys2Proof.core (k + 1) s = .fault f

/-- Faults are precise: a step that faults leaves the state before it but for the latch and, unless it was the fetch that
faulted, the pc advanced by 2 (R277; the spec's decision D13). -/
def Obligations.FaultsArePrecise : Prop :=
  ∀ (s t : State) (f : Fault), Machine.step s = .next t → t.fault = some f →
    (4095 ≤ s.pc.toNat ∧ t = { s with fault := some f }) ∨
    (s.pc.toNat ≤ 4094 ∧ t = { s with fault := some f, pc := s.pc + 2 })

/-- Which instruction raises what at execute time: the table of R280. In a running core every instruction answers a next
state; where the table gives a fault, that state is the old one with the fault latched, and elsewhere no fault is latched.
Rests on the spec's decisions D1, D10 and D13. -/
def Obligations.ExecuteFaultsAreThoseOfTheTable : Prop :=
  ∀ (i : Instr) (s : State), s.fault = none →
    match executeFault i s with
    | some f => exec i s = .next { s with fault := some f }
    | none => ∃ t, exec i s = .next t ∧ t.fault = none

/-! ## Rules about every instruction -/

/-- No instruction writes the keypad snapshot, the accumulators or the rate (R28, R34, R35, R36). -/
def Obligations.StepLeavesKeysAndSchedulerAlone : Prop :=
  ∀ s t : State, Machine.step s = .next t →
    t.key = s.key ∧ t.tacc = s.tacc ∧ t.iacc = s.iacc ∧ t.rate = s.rate

/-- Only `2nnn` pushes and only `00EE` pops: any other instruction leaves `STK` and `SP` as they were (R26). -/
def Obligations.OnlyCallAndReturnTouchTheStack : Prop :=
  ∀ (i : Instr) (s t : State), exec i s = .next t → i ≠ .ret → (∀ nnn, i ≠ .call nnn) → SameStack s t

/-- An instruction writes only its destination registers, and `VF` only where R23's table or its destination says so
(R22, R23; for `8xy0` to `8xy3` the spec's decision D6). -/
def Obligations.RegistersChangeOnlyWhereNamed : Prop :=
  ∀ (i : Instr) (s t : State), exec i s = .next t → SameRegsBut (writtenRegs i) s t

/-- No instruction changes a byte of memory but `Fx33` and `Fx55`, and those only the bytes they store from `I` upwards
(R66). -/
def Obligations.MemoryChangesOnlyWhereStored : Prop :=
  ∀ (i : Instr) (s t : State), exec i s = .next t → SameMemoryOutside (indexAddr s 0) (storedCount i) s t

/-- `I` is written by `Annn`, `Fx1E` and `Fx29` only (for `Fx55` and `Fx65` the spec's decision D8), `DT` by `Fx15` only,
`ST` by `Fx18` only, the display by `00E0` and `Dxyn` only (R24, R27, R29). Each executed `Cxnn` draws exactly one random
byte and no other instruction draws one (R160; the counter is the model's own field, log entry 5). -/
def Obligations.SpecialRegistersHaveTheirOwnWriters : Prop :=
  ∀ (i : Instr) (s t : State), exec i s = .next t →
    (t.i = s.i ∨ (∃ nnn, i = .ldI nnn) ∨ (∃ x, i = .addI x) ∨ ∃ x, i = .ldFont x) ∧
    (t.dt = s.dt ∨ ∃ x, i = .ldDt x) ∧ (t.st = s.st ∨ ∃ x, i = .ldSt x) ∧
    (t.pix = s.pix ∨ i = .cls ∨ ∃ x y n, i = .drw x y n) ∧
    (((∃ x nn, i = .rnd x nn) ∧ t.draws = s.draws + 1) ∨ ((∀ x nn, i ≠ .rnd x nn) ∧ t.draws = s.draws))

/-- The accumulators and the rate are not visible to instructions: two states that differ only in them take the same step
(R34, R35, R36). For `Cxnn` the two steps draw the same byte because the two states have equal `draws`: that is the model's
choice (log entry 5, DESIGN CHOICE), and the spec promises nothing of the kind (R160, R234). -/
def Obligations.InstructionsCannotSeeTheScheduler : Prop :=
  ∀ (s t : State) (ta ia : Rat) (r : Nat), Machine.step s = .next t →
    Machine.step { s with tacc := ta, iacc := ia, rate := r } = .next { t with tacc := ta, iacc := ia, rate := r }

/-- The sound timer cannot be observed by a program: two states that differ only in `ST` take steps that agree in
everything else (R27, R40). For `Cxnn` they agree because the two states have equal `draws` and so draw the same byte: that is
the model's choice (log entry 5, DESIGN CHOICE), and the spec promises nothing of the kind (R160, R234). -/
def Obligations.SoundTimerIsNeverRead : Prop :=
  ∀ (s t : State) (b : Byte), Machine.step s = .next t →
    ∃ c : Byte, Machine.step { s with st := b } = .next { t with st := c }

/-! ## Invariants -/

/-- The reset state meets the invariant, for every value of the parameter FONT. -/
def Obligations.ResetMeetsTheInvariant : Prop := State.reset.Inv ∧ ∀ font : Font, (State.resetWith font).Inv

/-- Every step keeps the invariant: canonical memory, the bound on the pc, live return addresses between 2 and 4096, the
range of the rate, no negative accumulator (R44). -/
def Obligations.StepKeepsTheInvariant : Prop :=
  ∀ s t : State, s.Inv → Machine.step s = .next t → t.Inv

/-- Every host operation keeps the invariant, a `Tick` with all its timer decrements and steps included, and a `Reset` with any
FONT (R44, R252). -/
def Obligations.HostOperationsKeepTheInvariant : Prop :=
  ∀ (font : Font) (op : HostOp) (s : State), s.Inv → (hostStep font op s).2.Inv

/-- Every reachable state meets the invariant, for every value of the parameter FONT (R44): between
the host's operations, within a `Tick`, and after bare steps of the core, which are followed by the model's choice (log entry
29). -/
def Obligations.ReachableStatesMeetTheInvariant : Prop := ∀ (font : Font) (s : State), Reachable font s → s.Inv

/-! ## Reset and memory -/

/-- What reset leaves (R43, R310): registers, `I`, the stack and the timers zero, `PC = 0x200`, memory zero from 0x050 up
and below it the 80 bytes of the parameter `FONT`, whatever they are (the spec's decision D12), `RATE = 500`; keys up, display
off, accumulators 0 and no fault are the spec's decisions D14 and D16. With the default of FONT, whose byte values are
PRESUMED (log entry 7), it is `State.reset` but for the model's own count of drawn bytes (log entry 6). -/
def Obligations.ResetLeavesTheStatedValues : Prop :=
  ∀ (font : Font) (s : State), ∃ t, hostStep font .reset s = (.success, t) ∧
    (∀ r, t.reg r = 0) ∧ t.i = 0 ∧ t.pc = 0x200 ∧ t.sp = 0 ∧ (∀ k : Fin 16, t.stk[k.val] = 0) ∧ t.dt = 0 ∧ t.st = 0 ∧
    (∀ a, 0x050 ≤ a → Memory.read t.mem a = 0) ∧ (∀ k : Fin 80, Memory.read t.mem k.val = font[k.val]) ∧
    t.rate = 500 ∧ (∀ k : Fin 16, t.key[k.val] = false) ∧ (∀ cx cy, t.pix.isOn cx cy = false) ∧
    t.tacc = 0 ∧ t.iacc = 0 ∧ t.fault = none ∧
    (font = fontDefault → { t with draws := State.reset.draws } = State.reset)

/-- `MemRead`: an address above 4095 raises `OutOfRange`; otherwise the byte of that cell (R62). `MemWrite`: the same check;
otherwise that one cell becomes the byte and nothing else changes (R63). That an address of the font region can be written
like any other is the spec's decision D11 (R72, log entry 19). -/
def Obligations.MemoryPrimitivesReadBackTheWrite : Prop :=
  (∀ (a : Nat) (s : State), 4095 < a → memRead a s = .error (.outOfRange .memory a)) ∧
  (∀ (a : Nat) (b : Byte) (s : State), 4095 < a → memWrite a b s = .error (.outOfRange .memory a)) ∧
  (∀ (a : Nat) (s : State), a ≤ 4095 → memRead a s = .ok (Memory.read s.mem a)) ∧
  ∀ (a : Nat) (b : Byte) (s : State), a ≤ 4095 → ∃ t, memWrite a b s = .ok t ∧ memRead a t = .ok b ∧
    (∀ c, c ≠ a → memRead c t = memRead c s) ∧ { t with mem := s.mem } = s

/-- The canonical form is one list for one content: two canonical memories that read alike everywhere are equal (the
model's form of memory, log entry 8). -/
def Obligations.CanonicalMemoriesThatReadAlikeAreEqual : Prop :=
  ∀ m n : Memory, Memory.wf m → Memory.wf n → (∀ a, Memory.read m a = Memory.read n a) → m = n

/-! ## Control transfer -/

/-- `00EE`: with a live entry, it pops the newest into the pc and changes nothing else; with none it raises
`StackUnderflow` (R121). -/
def Obligations.ReturnPopsTheNewestEntry : Prop :=
  encode .ret = 0x00EE ∧
  ∀ s : State,
    (0 < s.sp.val → ∃ t, exec .ret s = .next t ∧ t.sp.val + 1 = s.sp.val ∧
      (∀ k : Fin 16, k.val + 1 = s.sp.val → t.pc = s.stk[k.val]) ∧ { t with sp := s.sp, pc := s.pc } = s) ∧
    (s.sp.val = 0 → exec .ret s = .next { s with fault := some .stackUnderflow })

/-- `2nnn`: with fewer than 16 entries it stores the advanced pc in the first free entry, counts it and jumps, and changes
nothing else; with 16 it raises `StackOverflow` and nothing is pushed (R123; the bound of 16 is the spec's decision D1). -/
def Obligations.CallPushesTheAdvancedPc : Prop :=
  ∀ (nnn : Addr) (s : State),
    (∀ h : s.sp.val < 16, ∃ t, exec (.call nnn) s = .next t ∧ t.sp.val = s.sp.val + 1 ∧
      t.stk = s.stk.set s.sp.val s.pc h ∧ t.pc.toNat = nnn.toNat ∧
      { t with sp := s.sp, stk := s.stk, pc := s.pc } = s) ∧
    (s.sp.val = 16 → exec (.call nnn) s = .next { s with fault := some .stackOverflow })

/-- A call immediately followed by a return restores the pc to its value just after the call's fetch, and the depth of the
stack (the testable property of R123). -/
def Obligations.CallThenReturnResumesAfterTheCall : Prop :=
  ∀ (nnn : Addr) (s : State), s.sp.val < 16 →
    ∃ t, exec (.call nnn) s = .next t ∧ ∃ u, exec .ret { t with pc := t.pc + 2 } = .next u ∧ u.pc = s.pc ∧ u.sp = s.sp

/-- `1nnn` sets the pc to `nnn`, and `Bnnn` to the unmasked sum of `nnn` and `V[0]`; neither changes anything else. A target
of 4095 or more faults at the next step and does not wrap to low memory; a jump to its own
address is executed for ever and changes nothing (R122, R124). -/
def Obligations.JumpsReplaceThePc : Prop :=
  ∀ (nnn : Addr) (s : State),
    encode (.jp nnn) = 0x1#4 ++ nnn ∧ encode (.jpV0 nnn) = 0xB#4 ++ nnn ∧
    (∃ t, exec (.jp nnn) s = .next t ∧ t.pc.toNat = nnn.toNat ∧ OnlyPc s t ∧
      (s.fault = none → nnn = 0xFFF → ∃ u, Machine.step t = .next u ∧ u.fault = some (.outOfRange .memory 4096)) ∧
      (s.fault = none → s.pc.toNat = nnn.toNat → nnn.toNat ≤ 4094 →
        decode [Memory.read s.mem nnn.toNat, Memory.read s.mem (nnn.toNat + 1)] = .ok (.jp nnn, []) →
        ∀ k, Host.Core.run Sys2Proof.core k s = .next s)) ∧
    (∃ t, exec (.jpV0 nnn) s = .next t ∧ t.pc.toNat = nnn.toNat + (s.reg 0).toNat ∧ OnlyPc s t ∧
      (s.fault = none → 4095 ≤ nnn.toNat + (s.reg 0).toNat → ∃ u, Machine.step t = .next u ∧
        u.fault = some (.outOfRange .memory (max (nnn.toNat + (s.reg 0).toNat) 4096))))

/-- `3xnn` skips the next instruction exactly when `V[x] = nn` and `4xnn` exactly when it is not; neither changes anything
but the pc (R125, R126). -/
def Obligations.SkipsComparingAnImmediate : Prop :=
  ∀ (x : RegIdx) (nn : Byte) (s : State),
    encode (.seImm x nn) = 0x3#4 ++ x ++ nn ∧ encode (.sneImm x nn) = 0x4#4 ++ x ++ nn ∧
    exec (.seImm x nn) s = .next { s with pc := if s.reg x = nn then s.pc + 2 else s.pc } ∧
    exec (.sneImm x nn) s = .next { s with pc := if s.reg x = nn then s.pc else s.pc + 2 }

/-- `5xy0` skips the next instruction exactly when `V[x] = V[y]` and `9xy0` exactly when they differ; neither changes
anything but the pc; with `x = y` the first always skips and the second never does (R127, R128). -/
def Obligations.SkipsComparingRegisters : Prop :=
  ∀ (x y : RegIdx) (s : State),
    exec (.seReg x y) s = .next { s with pc := if s.reg x = s.reg y then s.pc + 2 else s.pc } ∧
    exec (.sneReg x y) s = .next { s with pc := if s.reg x = s.reg y then s.pc else s.pc + 2 } ∧
    exec (.seReg x x) s = .next { s with pc := s.pc + 2 } ∧ exec (.sneReg x x) s = .next s

/-- The skipped word is neither fetched nor decoded: when the condition of one of the six skips holds, the pc moves to the
instruction's address plus 4 and nothing else changes, and the next step runs the word there, whatever the word between holds
(R129; the conditions are those of R125 to R128, R212 and R213). -/
def Obligations.SkippedWordIsNeverDecoded : Prop :=
  ∀ (s : State) (i j : Instr), s.fault = none → s.pc.toNat + 5 ≤ 4095 →
    decode [Memory.read s.mem s.pc.toNat, Memory.read s.mem (s.pc.toNat + 1)] = .ok (i, []) →
    ((∃ x nn, i = .seImm x nn ∧ s.reg x = nn) ∨ (∃ x nn, i = .sneImm x nn ∧ s.reg x ≠ nn) ∨
      (∃ x y, i = .seReg x y ∧ s.reg x = s.reg y) ∨ (∃ x y, i = .sneReg x y ∧ s.reg x ≠ s.reg y) ∨
      (∃ x, i = .skp x ∧ ∃ h : (s.reg x).toNat < 16, s.key[(s.reg x).toNat] = true) ∨
      (∃ x, i = .sknp x ∧ ∃ h : (s.reg x).toNat < 16, s.key[(s.reg x).toNat] = false)) →
    decode [Memory.read s.mem (s.pc.toNat + 4), Memory.read s.mem (s.pc.toNat + 5)] = .ok (j, []) →
    Machine.step s = .next { s with pc := s.pc + 4 } ∧
      Machine.step { s with pc := s.pc + 4 } = exec j { s with pc := s.pc + 6 }

/-! ## Register loads, arithmetic, logic, shifts, random -/

/-- `6xnn` sets `V[x]` to `nn`, `7xnn` adds `nn` to it modulo 256, `8xy0` copies `V[y]` to it; nothing else changes, `VF`
included unless `x` is 15 (R142, R143, R144). That `8xy0` leaves `VF` unwritten is the spec's decision D6 (log entry 16). -/
def Obligations.LoadsAndAddImmediate : Prop :=
  ∀ (x y : RegIdx) (nn : Byte) (s : State),
    encode (.ldImm x nn) = 0x6#4 ++ x ++ nn ∧ encode (.addImm x nn) = 0x7#4 ++ x ++ nn ∧
    encode (.ldReg x y) = 0x8#4 ++ x ++ y ++ 0x0#4 ∧
    (∃ t, exec (.ldImm x nn) s = .next t ∧ t.reg x = nn ∧ OnlyRegs [x] s t) ∧
    (∃ t, exec (.addImm x nn) s = .next t ∧ (t.reg x).toNat = ((s.reg x).toNat + nn.toNat) % 256 ∧ OnlyRegs [x] s t) ∧
    (∃ t, exec (.ldReg x y) s = .next t ∧ t.reg x = s.reg y ∧ OnlyRegs [x] s t)

/-- `8xy1`, `8xy2`, `8xy3`: bitwise OR, AND and exclusive OR into `V[x]`, bit by bit, and nothing else changes; that `VF` is
not cleared is the spec's decision D6 (R145, R146, R147). -/
def Obligations.LogicIsBitwiseAndWritesNoFlag : Prop :=
  ∀ (x y : RegIdx) (s : State),
    (∃ t, exec (.orReg x y) s = .next t ∧ OnlyRegs [x] s t ∧
      ∀ k, (t.reg x).getLsbD k = ((s.reg x).getLsbD k || (s.reg y).getLsbD k)) ∧
    (∃ t, exec (.andReg x y) s = .next t ∧ OnlyRegs [x] s t ∧
      ∀ k, (t.reg x).getLsbD k = ((s.reg x).getLsbD k && (s.reg y).getLsbD k)) ∧
    (∃ t, exec (.xorReg x y) s = .next t ∧ OnlyRegs [x] s t ∧
      ∀ k, (t.reg x).getLsbD k = ((s.reg x).getLsbD k ^^ (s.reg y).getLsbD k))

/-- `8xy4`: the sum modulo 256 in `V[x]` and the carry in `VF`, from the old operands, and nothing else changes (R148). That
with `x = 15` the flag is what remains is the spec's decision D5 (R141). -/
def Obligations.AddWritesSumAndCarry : Prop :=
  ∀ (x y : RegIdx) (s : State), ∃ t, exec (.addReg x y) s = .next t ∧ OnlyRegs [x, vfIdx] s t ∧
    (x ≠ vfIdx → (t.reg x).toNat = ((s.reg x).toNat + (s.reg y).toNat) % 256) ∧
    (t.reg vfIdx).toNat = if (s.reg x).toNat + (s.reg y).toNat ≥ 256 then 1 else 0

/-- `8xy5` and the reverse `8xy7`: the difference modulo 256 in `V[x]` and NOT borrow in `VF`, from the old operands, and
nothing else changes (R149, R151). That with `x = 15` the flag is what remains is the spec's decision D5 (R141). -/
def Obligations.SubtractsWriteDifferenceAndNotBorrow : Prop :=
  ∀ (x y : RegIdx) (s : State),
    (∃ t, exec (.subReg x y) s = .next t ∧ OnlyRegs [x, vfIdx] s t ∧
      (x ≠ vfIdx → ((t.reg x).toNat : Int) = ((s.reg x).toNat - (s.reg y).toNat : Int) % 256) ∧
      (t.reg vfIdx).toNat = if (s.reg x).toNat ≥ (s.reg y).toNat then 1 else 0) ∧
    (∃ t, exec (.subnReg x y) s = .next t ∧ OnlyRegs [x, vfIdx] s t ∧
      (x ≠ vfIdx → ((t.reg x).toNat : Int) = ((s.reg y).toNat - (s.reg x).toNat : Int) % 256) ∧
      (t.reg vfIdx).toNat = if (s.reg y).toNat ≥ (s.reg x).toNat then 1 else 0)

/-- `8xy6` and `8xyE`: `V[x]` shifted by one in place, the bit shifted out in `VF`, nothing else changed (R150, R152). That
the source is `V[x]` and `y` is not used is the spec's decision D4, and that with `x = 15` the flag remains is D5. -/
def Obligations.ShiftsWriteTheBitShiftedOut : Prop :=
  ∀ (x y : RegIdx) (s : State),
    (∃ t, exec (.shr x y) s = .next t ∧ OnlyRegs [x, vfIdx] s t ∧
      (x ≠ vfIdx → (t.reg x).toNat = (s.reg x).toNat / 2) ∧ (t.reg vfIdx).toNat = (s.reg x).toNat % 2) ∧
    (∃ t, exec (.shl x y) s = .next t ∧ OnlyRegs [x, vfIdx] s t ∧
      (x ≠ vfIdx → (t.reg x).toNat = 2 * (s.reg x).toNat % 256) ∧ (t.reg vfIdx).toNat = (s.reg x).toNat / 128)

/-- `Cxnn`: the next random byte, whatever it is, masked by `nn`, in `V[x]`; every bit that is 0 in `nn` is 0 in the result
(R161; that the mask is `nn` is the spec's decision D2, that the byte is free D3). The count of drawn bytes is the model's
field (log entry 5); nothing else changes. -/
def Obligations.RandomByteIsMasked : Prop :=
  ∀ (x : RegIdx) (nn : Byte) (s : State), ∃ t, exec (.rnd x nn) s = .next t ∧
    t.reg x = Config.rnd s.draws &&& nn ∧ t.reg x &&& ~~~nn = 0 ∧ t.draws = s.draws + 1 ∧
    OnlyRegs [x] s { t with draws := s.draws }

/-! ## Index register and memory -/

/-- `Annn` sets `I` to `nnn`, its bits 15:12 to 0; `Fx29` sets `I` to `V[x] * 5`, not masked to a nibble. Neither changes
anything else (R171, R173). -/
def Obligations.LoadIndexAndGlyphAddress : Prop :=
  ∀ (nnn : Addr) (x : RegIdx) (s : State),
    encode (.ldI nnn) = 0xA#4 ++ nnn ∧ encode (.ldFont x) = 0xF#4 ++ x ++ 0x29#8 ∧
    (∃ t, exec (.ldI nnn) s = .next t ∧ t.i.toNat = nnn.toNat ∧ OnlyI s t) ∧
    (∃ t, exec (.ldFont x) s = .next t ∧ t.i.toNat = (s.reg x).toNat * 5 ∧ OnlyI s t)

/-- `Fx1E` adds `V[x]` to `I` and changes nothing else, `VF` included; there is no 12-bit mask (R172). The reduction modulo
65536 is the spec's decision D29. -/
def Obligations.AddToIndexWrapsAtSixteenBits : Prop :=
  ∀ (x : RegIdx) (s : State), ∃ t, exec (.addI x) s = .next t ∧
    t.i.toNat = (s.i.toNat + (s.reg x).toNat) % 65536 ∧ OnlyI s t

/-- `Fx33` with its three addresses in memory stores hundreds, tens and ones at `I`, `I + 1`, `I + 2`; every other byte and
all else is unchanged (that an address of the font region can be written is the spec's decision D11). Out of range it raises
`OutOfRange` and nothing is written (R174; the latter is the spec's decision D13). -/
def Obligations.DecimalDigitsAreStored : Prop :=
  ∀ (x : RegIdx) (s : State),
    (s.i.toNat + 2 ≤ 4095 → ∃ t, exec (.ldBcd x) s = .next t ∧
      (Memory.read t.mem (indexAddr s 0)).toNat = (s.reg x).toNat / 100 ∧
      (Memory.read t.mem (indexAddr s 1)).toNat = (s.reg x).toNat / 10 % 10 ∧
      (Memory.read t.mem (indexAddr s 2)).toNat = (s.reg x).toNat % 10 ∧ OnlyMemory (indexAddr s 0) 3 s t) ∧
    (4095 < s.i.toNat + 2 →
      exec (.ldBcd x) s = .next { s with fault := some (.outOfRange .memory (max s.i.toNat 4096)) })

/-- `Fx55` with its range in memory stores `V0..Vx`, register `k` at `I + k`; every other byte and all else, `I` included
(the spec's decision D8), is unchanged (that an address of the font region can be written is D11). Out of range it raises
`OutOfRange` and nothing is written (R175; D13). -/
def Obligations.RegistersAreStoredFromIndex : Prop :=
  ∀ (x : RegIdx) (s : State),
    (s.i.toNat + x.toNat ≤ 4095 → ∃ t, exec (.storeRegs x) s = .next t ∧
      (∀ k : RegIdx, k.toNat ≤ x.toNat → Memory.read t.mem (indexAddr s k.toNat) = s.reg k) ∧
      OnlyMemory (indexAddr s 0) (x.toNat + 1) s t) ∧
    (4095 < s.i.toNat + x.toNat →
      exec (.storeRegs x) s = .next { s with fault := some (.outOfRange .memory (max s.i.toNat 4096)) })

/-- `Fx65` with its range in memory loads `V0..Vx`, register `k` from `I + k`; the registers above `x` and all else, `I`
included (the spec's decision D8), are unchanged. Out of range it raises `OutOfRange` and no register changes (R176;
D13). -/
def Obligations.RegistersAreLoadedFromIndex : Prop :=
  ∀ (x : RegIdx) (s : State),
    (s.i.toNat + x.toNat ≤ 4095 → ∃ t, exec (.loadRegs x) s = .next t ∧
      (∀ k : RegIdx, k.toNat ≤ x.toNat → t.reg k = Memory.read s.mem (indexAddr s k.toNat)) ∧
      (∀ k : RegIdx, x.toNat < k.toNat → t.reg k = s.reg k) ∧ { t with v := s.v } = s) ∧
    (4095 < s.i.toNat + x.toNat →
      exec (.loadRegs x) s = .next { s with fault := some (.outOfRange .memory (max s.i.toNat 4096)) })

/-! ## Display -/

/-- `TogglePixel` flips the one cell that its coordinates wrap to and no other, and that cell's presentation colour with it;
`IsOn` applies the same wrapping (R191, R192). -/
def Obligations.ToggleFlipsOneWrappedPixel : Prop :=
  (∀ (p : Pixels) (px py cx cy : Nat), (p.toggle px py).isOn cx cy =
    if cx % 64 = px % 64 ∧ cy % 32 = py % 32 then !p.isOn px py else p.isOn cx cy) ∧
  (∀ (p : Pixels) (px py : Nat), (p.toggle px py).color px py =
    if p.isOn px py then Config.colorOff else Config.colorOn) ∧
  ∀ (p : Pixels) (px py : Nat), p.isOn px py = p.isOn (px % 64) (py % 32)

/-- `00E0` turns every pixel off, so that the presentation buffer is entirely black, and changes nothing else (R190,
R193). -/
def Obligations.ClearTurnsEveryPixelOff : Prop :=
  ∀ s : State, encode .cls = 0x00E0 ∧
    ∃ t, exec .cls s = .next t ∧ (∀ cx cy, t.pix.isOn cx cy = false) ∧
      presentation t.pix = List.replicate 6144 0 ∧ { t with pix := s.pix } = s

/-- `Dxyn` with its rows in memory, or with none: every pixel becomes its old value exclusive-or the sprite bit that lands on
it, `VF` is 1 exactly when a pixel the sprite toggles was on, and all else is unchanged (R195). That the position is sampled
before `VF` is cleared is the spec's decision D7 (R194). Out of range it raises `OutOfRange` and nothing is drawn (D13). -/
def Obligations.DrawXorsTheSpriteAndReportsCollision : Prop :=
  ∀ (x y : RegIdx) (n : Nibble) (s : State),
    (n = 0 ∨ s.i.toNat + n.toNat - 1 ≤ 4095 → ∃ t, exec (.drw x y n) s = .next t ∧
      (∀ cx cy, cx < 64 → cy < 32 → t.pix.isOn cx cy =
        (s.pix.isOn cx cy ^^
          spriteCovers (Memory.readAll s.mem (indexAddr s 0) n.toNat) (s.reg x).toNat (s.reg y).toNat cx cy)) ∧
      (t.reg vfIdx = 1 ∨ t.reg vfIdx = 0) ∧
      (t.reg vfIdx = 1 ↔ ∃ cx cy, cx < 64 ∧ cy < 32 ∧ s.pix.isOn cx cy = true ∧
        spriteCovers (Memory.readAll s.mem (indexAddr s 0) n.toNat) (s.reg x).toNat (s.reg y).toNat cx cy = true) ∧
      OnlyRegs [vfIdx] s { t with pix := s.pix }) ∧
    (n ≠ 0 → 4095 < s.i.toNat + n.toNat - 1 →
      exec (.drw x y n) s = .next { s with fault := some (.outOfRange .memory (max s.i.toNat 4096)) })

/-- Drawing the identical sprite at the identical position twice returns the grid to its state before, and the second draw's
`VF` reflects collisions against the first draw's result (R195 (g)). The position is identical when neither `x` nor `y` is
15 (R194, the spec's decision D7). -/
def Obligations.DrawingTwiceRestoresTheGrid : Prop :=
  ∀ (x y : RegIdx) (n : Nibble) (s : State), x ≠ vfIdx → y ≠ vfIdx → (n = 0 ∨ s.i.toNat + n.toNat - 1 ≤ 4095) →
    ∃ t, exec (.drw x y n) s = .next t ∧ ∃ u, exec (.drw x y n) t = .next u ∧ u.pix = s.pix ∧
      (u.reg vfIdx = 1 ↔ ∃ cx cy, cx < 64 ∧ cy < 32 ∧ t.pix.isOn cx cy = true ∧
        spriteCovers (Memory.readAll s.mem (indexAddr s 0) n.toNat) (s.reg x).toNat (s.reg y).toNat cx cy = true)

/-- The presentation buffer is 6144 bytes and mirrors every pixel: amber where it is on, black where it is off (R42);
`ReadDisplay` reports it in any state and changes nothing (R250). The offset `(cy * 64 + cx) * 3` and the order of the bytes are PRESUMED (log
entry 13; the spec's decision D22). -/
def Obligations.PresentationMirrorsTheGrid : Prop :=
  (∀ (font : Font) (s : State), hostStep font .readDisplay s = (.display (presentation s.pix), s)) ∧
  ∀ (p : Pixels), (presentation p).length = 6144 ∧ ∀ cx cy, cx < 64 → cy < 32 →
    (presentation p)[(cy * 64 + cx) * 3]? = some (if p.isOn cx cy then 0xFF else 0x00) ∧
    (presentation p)[(cy * 64 + cx) * 3 + 1]? = some (if p.isOn cx cy then 0xBB else 0x00) ∧
    (presentation p)[(cy * 64 + cx) * 3 + 2]? = some 0x00

/-! ## Keypad and timers -/

/-- `Ex9E` and `ExA1` with a key index of 0 to 15: the first skips exactly when the key is pressed, the second exactly when
it is not, and nothing but the pc changes (R212, R213). With an index above 15 both raise `OutOfRange` with it, the index
not reduced to a nibble (R211, the spec's decision D10). -/
def Obligations.KeySkipsTestTheLevel : Prop :=
  ∀ (x : RegIdx) (s : State),
    (∀ h : (s.reg x).toNat < 16,
      exec (.skp x) s = .next { s with pc := if s.key[(s.reg x).toNat] = true then s.pc + 2 else s.pc } ∧
      exec (.sknp x) s = .next { s with pc := if s.key[(s.reg x).toNat] = true then s.pc else s.pc + 2 }) ∧
    (15 < (s.reg x).toNat →
      exec (.skp x) s = .next { s with fault := some (.outOfRange .keypad (s.reg x).toNat) } ∧
      exec (.sknp x) s = .next { s with fault := some (.outOfRange .keypad (s.reg x).toNat) })

/-- `Fx0A` with a key pressed stores the lowest-indexed pressed key in `V[x]` and changes nothing else; with none pressed it
moves the pc back by 2 and changes nothing else, so that a whole step of it changes no state at all and the next step runs
it again (R214). -/
def Obligations.KeyWaitTakesTheLowestKeyOrRetries : Prop :=
  ∀ (x : RegIdx) (s : State), encode (.ldKey x) = 0xF#4 ++ x ++ 0x0A#8 ∧
    (∀ k : Fin 16, s.key[k.val] = true → (∀ j : Fin 16, j < k → s.key[j.val] = false) →
      ∃ t, exec (.ldKey x) s = .next t ∧ (t.reg x).toNat = k.val ∧ OnlyRegs [x] s t) ∧
    ((∀ j : Fin 16, s.key[j.val] = false) →
      exec (.ldKey x) s = .next { s with pc := s.pc - 2 } ∧
      (s.fault = none → s.pc.toNat ≤ 4094 →
        decode [Memory.read s.mem s.pc.toNat, Memory.read s.mem (s.pc.toNat + 1)] = .ok (.ldKey x, []) →
        Machine.step s = .next s))

/-- `Fx07` reads `DT` into `V[x]`, `Fx15` writes `V[x]` to `DT` and `Fx18` writes it to `ST`, all 8 bits; nothing else
changes, `TACC` included (R215, R216, R217). -/
def Obligations.TimerInstructionsMoveAllEightBits : Prop :=
  ∀ (x : RegIdx) (s : State),
    encode (.ldRegDt x) = 0xF#4 ++ x ++ 0x07#8 ∧ encode (.ldDt x) = 0xF#4 ++ x ++ 0x15#8 ∧
    encode (.ldSt x) = 0xF#4 ++ x ++ 0x18#8 ∧
    (∃ t, exec (.ldRegDt x) s = .next t ∧ t.reg x = s.dt ∧ OnlyRegs [x] s t) ∧
    exec (.ldDt x) s = .next { s with dt := s.reg x } ∧ exec (.ldSt x) s = .next { s with st := s.reg x }

/-! ## Scheduler and host operations -/

/-- The timer drain loop in closed form: `Nt = floor(60 * (TACC + dt))` iterations, each timer lowered by `Nt` but never
below 0, and less than one period left (R242; exact rational time is the spec's decision D19). -/
def Obligations.TimerDrainClosedForm : Prop :=
  ∀ (elapsed : Rat) (s : State), 0 ≤ s.tacc → 0 ≤ elapsed →
    let nt := ⌊60 * (s.tacc + elapsed)⌋₊
    let t := timerDrain elapsed s
    t.dt.toNat = s.dt.toNat - nt ∧ t.st.toNat = s.st.toNat - nt ∧ t.tacc = s.tacc + elapsed - nt / 60 ∧
    0 ≤ t.tacc ∧ t.tacc < 1 / 60 ∧ { t with dt := s.dt, st := s.st, tacc := s.tacc } = s

/-- Timer decay does not depend on how the time is split into Ticks (R244; D19). -/
def Obligations.TimerDecayIgnoresTheSplit : Prop :=
  ∀ (d e : Rat) (s : State), 0 ≤ s.tacc → 0 ≤ d → 0 ≤ e → timerDrain e (timerDrain d s) = timerDrain (d + e) s

/-- A `Tick` decays the timers first and then runs the `Ni = floor(RATE * (IACC + dt))` steps that are due: if that many
steps, from the state after the decay, lead to a running state, the `Tick` succeeds in it, with the rest of the time in
`IACC`, less than one period (R240, R241, R243; the order is the spec's decision D18, exact time D19). A negative time is
refused and nothing changes (R240). -/
def Obligations.TickDecaysTimersThenRunsTheDueSteps : Prop :=
  (∀ (font : Font) (elapsed : Rat) (s u : State), 0 ≤ s.iacc → 0 ≤ elapsed → 1 ≤ s.rate → s.fault = none →
    let ni := ⌊(s.rate : Rat) * (s.iacc + elapsed)⌋₊
    let ia := s.iacc + elapsed - ni / s.rate
    Host.Core.run Sys2Proof.core ni (timerDrain elapsed s) = .next u → u.fault = none →
      hostStep font (.tick elapsed) s = (.success, { u with iacc := ia }) ∧ 0 ≤ ia ∧ ia < 1 / s.rate) ∧
  ∀ (font : Font) (elapsed : Rat) (s : State), s.fault = none → elapsed < 0 →
    hostStep font (.tick elapsed) s = (.timeRefused, s)

/-- When one of the due steps of a `Tick` faults, after `k` steps that did not, the `Tick` reports that fault; the timers have
decayed, the `k` steps and the faulting one have run and no further one, and `k` periods are subtracted, not that of the
faulting step (R245; the order is the spec's decision D18, exact time D19). Whatever fault a `Tick` reports is latched, and
from then on `Tick`, `LoadProgram`, `SetKeys` and `SetInstructionRate` change nothing and report it (R254; the latch is the
spec's decision D14). -/
def Obligations.FaultStopsTheCoreUntilReset : Prop :=
  (∀ (font : Font) (elapsed : Rat) (s u v : State) (f : Fault) (k : Nat),
    0 ≤ s.iacc → 0 ≤ elapsed → 1 ≤ s.rate → s.fault = none →
    k < ⌊(s.rate : Rat) * (s.iacc + elapsed)⌋₊ →
    Host.Core.run Sys2Proof.core k (timerDrain elapsed s) = .next u → u.fault = none →
    Machine.step u = .next v → v.fault = some f →
      hostStep font (.tick elapsed) s = (.fault f, { v with iacc := s.iacc + elapsed - k / s.rate })) ∧
  ∀ (font : Font) (elapsed : Rat) (s t : State) (f : Fault), hostStep font (.tick elapsed) s = (.fault f, t) →
    t.fault = some f ∧ ∀ op : HostOp, op ≠ .reset → op ≠ .readDisplay → hostStep font op t = (.fault f, t)

/-- `LoadProgram` of at most 3584 bytes on a running core copies them to 0x200 upwards and changes nothing else; of more it
reports `ProgramTooLarge` and changes nothing, and latches no fault (R246; the latter is the spec's decision D21). -/
def Obligations.LoadProgramCopiesTheBytes : Prop :=
  ∀ (font : Font) (bytes : List Byte) (s : State), s.fault = none →
    (bytes.length ≤ 3584 → ∃ t, hostStep font (.loadProgram bytes) s = (.success, t) ∧
      (∀ k, k < bytes.length → Memory.read t.mem (0x200 + k) = bytes.getD k 0) ∧
      OnlyMemory 0x200 bytes.length s t) ∧
    (3584 < bytes.length → hostStep font (.loadProgram bytes) s = (.programTooLarge, s))

/-- On a running core `SetKeys` replaces the whole snapshot and nothing else; `SetInstructionRate` accepts exactly the
integers from 1 to 65535 (the spec's decision D20), leaves the accumulators as they are, and refuses any other request
without a change (R248, R249). -/
def Obligations.SettingKeysAndRate : Prop :=
  ∀ (font : Font) (s : State), s.fault = none →
    (∀ keys, hostStep font (.setKeys keys) s = (.success, { s with key := keys })) ∧
    (∀ n : Nat, 1 ≤ n → n ≤ 65535 → hostStep font (.setInstructionRate n) s = (.success, { s with rate := n })) ∧
    (∀ r : Rat, (∀ n : Nat, 1 ≤ n → n ≤ 65535 → r ≠ n) → hostStep font (.setInstructionRate r) s = (.rateRefused, s))
end

