-- ==== Sys2Proof/Laws/Decode.lean ====
section
/-! SUPPORT. The fields of a word put together from a format's parts, and a word put together again from its fields: what
proofs about the decoder and the encoder cite instead of unfolding bit extraction (30_encoding.md R91 to R96). -/

namespace Sys2Proof

@[simp] theorem fieldFamily_a (f : Nibble) (k : Addr) : fieldFamily (f ++ k) = f := by
  apply BitVec.eq_of_getLsbD_eq
  intro i hi
  simp only [fieldFamily, BitVec.getLsbD_extractLsb', BitVec.getLsbD_append]
  interval_cases i <;> simp

@[simp] theorem fieldNNN_a (f : Nibble) (k : Addr) : fieldNNN (f ++ k) = k := by
  apply BitVec.eq_of_getLsbD_eq
  intro i hi
  simp only [fieldNNN, BitVec.getLsbD_extractLsb', BitVec.getLsbD_append]
  interval_cases i <;> simp

@[simp] theorem fieldFamily_xk (f : Nibble) (x : RegIdx) (k : Byte) : fieldFamily (f ++ x ++ k) = f := by
  apply BitVec.eq_of_getLsbD_eq
  intro i hi
  simp only [fieldFamily, BitVec.getLsbD_extractLsb', BitVec.getLsbD_append]
  interval_cases i <;> simp

@[simp] theorem fieldX_xk (f : Nibble) (x : RegIdx) (k : Byte) : fieldX (f ++ x ++ k) = x := by
  apply BitVec.eq_of_getLsbD_eq
  intro i hi
  simp only [fieldX, BitVec.getLsbD_extractLsb', BitVec.getLsbD_append]
  interval_cases i <;> simp

@[simp] theorem fieldNN_xk (f : Nibble) (x : RegIdx) (k : Byte) : fieldNN (f ++ x ++ k) = k := by
  apply BitVec.eq_of_getLsbD_eq
  intro i hi
  simp only [fieldNN, BitVec.getLsbD_extractLsb', BitVec.getLsbD_append]
  interval_cases i <;> simp

@[simp] theorem fieldFamily_xyn (f : Nibble) (x y : RegIdx) (n : Nibble) : fieldFamily (f ++ x ++ y ++ n) = f := by
  apply BitVec.eq_of_getLsbD_eq
  intro i hi
  simp only [fieldFamily, BitVec.getLsbD_extractLsb', BitVec.getLsbD_append]
  interval_cases i <;> simp

@[simp] theorem fieldX_xyn (f : Nibble) (x y : RegIdx) (n : Nibble) : fieldX (f ++ x ++ y ++ n) = x := by
  apply BitVec.eq_of_getLsbD_eq
  intro i hi
  simp only [fieldX, BitVec.getLsbD_extractLsb', BitVec.getLsbD_append]
  interval_cases i <;> simp

@[simp] theorem fieldY_xyn (f : Nibble) (x y : RegIdx) (n : Nibble) : fieldY (f ++ x ++ y ++ n) = y := by
  apply BitVec.eq_of_getLsbD_eq
  intro i hi
  simp only [fieldY, BitVec.getLsbD_extractLsb', BitVec.getLsbD_append]
  interval_cases i <;> simp

@[simp] theorem fieldN_xyn (f : Nibble) (x y : RegIdx) (n : Nibble) : fieldN (f ++ x ++ y ++ n) = n := by
  apply BitVec.eq_of_getLsbD_eq
  intro i hi
  simp only [fieldN, BitVec.getLsbD_extractLsb', BitVec.getLsbD_append]
  interval_cases i <;> simp

/-- A word is its family nibble and its low 12 bits. -/
theorem word_eq_a (w : Word) : (fieldFamily w ++ fieldNNN w : Word) = w := by
  apply BitVec.eq_of_getLsbD_eq
  intro i hi
  simp only [fieldFamily, fieldNNN, BitVec.getLsbD_extractLsb', BitVec.getLsbD_append]
  interval_cases i <;> simp

/-- A word is its family nibble, its `x` and its low byte. -/
theorem word_eq_xk (w : Word) : (fieldFamily w ++ fieldX w ++ fieldNN w : Word) = w := by
  apply BitVec.eq_of_getLsbD_eq
  intro i hi
  simp only [fieldFamily, fieldX, fieldNN, BitVec.getLsbD_extractLsb', BitVec.getLsbD_append]
  interval_cases i <;> simp

/-- A word is its four nibbles. -/
theorem word_eq_xyn (w : Word) : (fieldFamily w ++ fieldX w ++ fieldY w ++ fieldN w : Word) = w := by
  apply BitVec.eq_of_getLsbD_eq
  intro i hi
  simp only [fieldFamily, fieldX, fieldY, fieldN, BitVec.getLsbD_extractLsb', BitVec.getLsbD_append]
  interval_cases i <;> simp

/-- The two bytes of a word, joined again. -/
@[simp] theorem joinBytes_wordBytes (w : Word) : joinBytes (w.extractLsb' 8 8) (w.extractLsb' 0 8) = w := by
  apply BitVec.eq_of_getLsbD_eq
  intro i hi
  simp only [joinBytes, BitVec.getLsbD_append, BitVec.getLsbD_extractLsb']
  interval_cases i <;> simp

/-- Two bytes decode to what their word decodes to. -/
theorem decodeWord_of_decode (hi lo : Byte) (i : Instr) (h : decode [hi, lo] = .ok (i, [])) :
    decodeWord (joinBytes hi lo) = .ok i := by
  simp only [decode] at h
  split at h
  · rename_i j hj
    simp only [Except.ok.injEq, Prod.mk.injEq, and_true] at h
    rw [hj, h]
  · cases h

end Sys2Proof
end

