-- ==== Sys2Proof/Laws/Display.lean ====
section
/-! SUPPORT. The laws of the display: what one toggle does, and that a sprite is a list of cells, no two of them the same, each
toggled once. -/

namespace Sys2Proof.Machine

theorem Pixels.isOn_congr (p : Pixels) (a b c d : Nat) (h : a % 64 = c % 64) (h' : b % 32 = d % 32) :
    p.isOn a b = p.isOn c d := by
  unfold Pixels.isOn
  simp only [h, h']

/-- Two grids that agree on every cell are equal. -/
theorem Pixels.ext_isOn (p q : Pixels) (h : ∀ cx cy, cx < 64 → cy < 32 → p.isOn cx cy = q.isOn cx cy) : p = q := by
  apply Vector.ext
  intro cy hy
  apply Vector.ext
  intro cx hx
  have h := h cx cy hx hy
  unfold Pixels.isOn at h
  simpa only [Nat.mod_eq_of_lt hx, Nat.mod_eq_of_lt hy] using h

@[simp] theorem Pixels.isOn_blank (cx cy : Nat) : Pixels.blank.isOn cx cy = false := by
  simp [Pixels.isOn, Pixels.blank]

/-- Two coordinate pairs name the same cell of the grid. -/
def sameCell (c d : Nat × Nat) : Bool := c.1 % 64 == d.1 % 64 && c.2 % 32 == d.2 % 32

theorem sameCell_comm (c d : Nat × Nat) : sameCell c d = sameCell d c := by
  simp only [sameCell, BEq.comm]

/-- A toggle, read anywhere: exclusive-or with whether it is the cell toggled. -/
theorem Pixels.isOn_toggle_xor (p : Pixels) (px py cx cy : Nat) :
    (p.toggle px py).isOn cx cy = (p.isOn cx cy ^^ sameCell (px, py) (cx, cy)) := by
  unfold Pixels.toggle sameCell Pixels.isOn
  by_cases hy : py % 32 = cy % 32
  · by_cases hx : px % 64 = cx % 64
    · simp [hx, hy]
    · simp [hx, hy, beq_eq_false_iff_ne.2 hx, Vector.getElem_set_ne]
  · simp [hy, beq_eq_false_iff_ne.2 hy, Vector.getElem_set_ne]

/-- One cell of a sprite drawn: toggled, and a collision noted where it was on. -/
def toggleCell (d : Drawing) (c : Nat × Nat) : Drawing := (d.1.toggle c.1 c.2, d.2 || d.1.isOn c.1 c.2)

/-- The cells that the 1 bits of a sprite row land on. -/
def rowCells (b : Byte) (px py : Nat) : List (Nat × Nat) :=
  ((List.range 8).filter (fun col => b.getLsbD (7 - col))).map (fun col => (px + col, py))

/-- The cells that the 1 bits of a sprite land on. -/
def spriteCells : List Byte → Nat → Nat → List (Nat × Nat)
  | [], _, _ => []
  | b :: bs, px, py => rowCells b px py ++ spriteCells bs px (py + 1)

theorem drawRow_eq (b : Byte) (px py : Nat) (d : Drawing) : drawRow b px py d = (rowCells b px py).foldl toggleCell d := by
  rw [rowCells, List.foldl_map, List.foldl_filter]
  rfl

/-- Drawing a sprite is toggling its cells in turn. -/
theorem drawRows_eq (rows : List Byte) (px py : Nat) (d : Drawing) :
    drawRows rows px py d = (spriteCells rows px py).foldl toggleCell d := by
  induction rows generalizing py d with
  | nil => rfl
  | cons b bs ih => rw [drawRows, ih, drawRow_eq, spriteCells, List.foldl_append]

theorem mem_rowCells (b : Byte) (px py : Nat) (c : Nat × Nat) :
    c ∈ rowCells b px py ↔ ∃ col, col < 8 ∧ b.getLsbD (7 - col) = true ∧ c = (px + col, py) := by
  simp only [rowCells, List.mem_map, List.mem_filter, List.mem_range, and_assoc, eq_comm (a := c)]

theorem mem_spriteCells (rows : List Byte) (px py : Nat) (c : Nat × Nat) :
    c ∈ spriteCells rows px py ↔ ∃ row, row < rows.length ∧ ∃ col, col < 8 ∧
      (rows.getD row 0).getLsbD (7 - col) = true ∧ c = (px + col, py + row) := by
  induction rows generalizing py with
  | nil => simp [spriteCells]
  | cons b bs ih =>
    rw [spriteCells, List.mem_append, mem_rowCells, ih]
    constructor
    · rintro (⟨col, h8, hb, rfl⟩ | ⟨row, hr, col, h8, hb, rfl⟩)
      · exact ⟨0, by simp, col, h8, hb, rfl⟩
      · exact ⟨row + 1, by simpa using hr, col, h8, by simpa using hb, by rw [Nat.add_assoc, Nat.add_comm 1]⟩
    · rintro ⟨row, hr, col, h8, hb, rfl⟩
      cases row with
      | zero => exact .inl ⟨col, h8, by simpa using hb, rfl⟩
      | succ row => exact .inr ⟨row, by simpa using hr, col, h8, by simpa using hb, by rw [Nat.add_assoc, Nat.add_comm 1]⟩

/-- No two bits of a sprite land on the same cell: a row is 8 of 64 columns wide and a sprite less than 32 rows high. -/
theorem spriteCells_distinct (rows : List Byte) (px py : Nat) (h : rows.length ≤ 32) :
    (spriteCells rows px py).Pairwise (fun c d => sameCell c d = false) := by
  induction rows generalizing py with
  | nil => exact .nil
  | cons b bs ih =>
    simp only [List.length_cons] at h
    rw [spriteCells, List.pairwise_append]
    refine ⟨?_, ih _ (by omega), ?_⟩
    · rw [rowCells, List.pairwise_map]
      apply List.Pairwise.filter
      apply List.Pairwise.imp_of_mem _ List.pairwise_lt_range
      intro a c ha hc hac
      simp only [List.mem_range] at ha hc
      simp only [sameCell, Bool.and_eq_false_iff, beq_eq_false_iff_ne]
      omega
    · intro c hc d hd
      obtain ⟨col, h8, -, rfl⟩ := (mem_rowCells ..).1 hc
      obtain ⟨row, hr, col', h8', -, rfl⟩ := (mem_spriteCells ..).1 hd
      simp only [sameCell, Bool.and_eq_false_iff, beq_eq_false_iff_ne]
      omega

/-- Cells toggled in turn, no two the same: each pixel is its old value exclusive-or whether it is one of them. -/
theorem isOn_foldl_toggleCell (l : List (Nat × Nat)) (d : Drawing) (cx cy : Nat)
    (h : l.Pairwise (fun c d => sameCell c d = false)) :
    (l.foldl toggleCell d).1.isOn cx cy = (d.1.isOn cx cy ^^ l.any (fun c => sameCell c (cx, cy))) := by
  induction l generalizing d with
  | nil => simp
  | cons c l ih =>
    rw [List.pairwise_cons] at h
    rw [List.foldl_cons, ih _ h.2, List.any_cons]
    simp only [toggleCell, Pixels.isOn_toggle_xor]
    by_cases hc : sameCell c (cx, cy) = true
    · have hl : l.any (fun c => sameCell c (cx, cy)) = false := by
        rw [List.any_eq_false]
        intro e he hce
        have := h.1 e he
        simp only [sameCell, Bool.and_eq_true, beq_iff_eq, Bool.and_eq_false_iff, beq_eq_false_iff_ne] at *
        omega
      simp [hc, hl]
    · simp [hc]

/-- Cells toggled in turn, no two the same: a collision is noted exactly where one of them was on before. -/
theorem flag_foldl_toggleCell (l : List (Nat × Nat)) (d : Drawing) (h : l.Pairwise (fun c d => sameCell c d = false)) :
    (l.foldl toggleCell d).2 = (d.2 || l.any (fun c => d.1.isOn c.1 c.2)) := by
  induction l generalizing d with
  | nil => simp
  | cons c l ih =>
    rw [List.pairwise_cons] at h
    have hl : l.any (fun e => (toggleCell d c).1.isOn e.1 e.2) = l.any (fun e => d.1.isOn e.1 e.2) := by
      rw [Bool.eq_iff_iff]
      simp only [List.any_eq_true]
      refine exists_congr fun e => and_congr_right fun he => ?_
      simp only [toggleCell, Pixels.isOn_toggle_xor, h.1 e he, Bool.xor_false]
    rw [List.foldl_cons, ih _ h.2, hl, List.any_cons]
    simp only [toggleCell, Bool.or_assoc]

/-- The cells of a sprite are those that `spriteCovers` names. -/
theorem spriteCovers_eq (rows : List Byte) (px py cx cy : Nat) (hx : cx < 64) (hy : cy < 32) :
    spriteCovers rows px py cx cy = (spriteCells rows px py).any (fun c => sameCell c (cx, cy)) := by
  rw [Bool.eq_iff_iff]
  simp only [spriteCovers, List.any_eq_true, List.mem_range, mem_spriteCells, Bool.and_eq_true, beq_iff_eq, sameCell,
    Nat.mod_eq_of_lt hx, Nat.mod_eq_of_lt hy]
  constructor
  · rintro ⟨row, hr, col, h8, ⟨hb, h1⟩, h2⟩
    exact ⟨_, ⟨row, hr, col, h8, hb, rfl⟩, h1, h2⟩
  · rintro ⟨_, ⟨row, hr, col, h8, hb, rfl⟩, h1, h2⟩
    exact ⟨row, hr, col, h8, ⟨hb, h1⟩, h2⟩

end Sys2Proof.Machine
end

