-- ==== Sys2Proof/Laws/Memory.lean ====
section
/-! SUPPORT. The laws of memory: a read after a write, and the canonical form kept by every operation. -/

namespace Sys2Proof.Machine

@[simp] theorem Memory.read_nil (a : Nat) : Memory.read [] a = Memory.unlisted a := rfl

theorem Memory.read_cons (c : Host.Cell) (m : Memory) (a : Nat) :
    Memory.read (c :: m) a = if c.1 = a then c.2 else Memory.read m a := rfl

/-- Without a cell for `a`, the address reads as unlisted. -/
theorem Memory.read_of_not_listed (m : Memory) (a : Nat) (h : ∀ c ∈ m, c.1 ≠ a) :
    Memory.read m a = Memory.unlisted a := by
  induction m with
  | nil => rfl
  | cons c m ih =>
    rw [Memory.read_cons, if_neg (h c (by simp)), ih fun d hd => h d (by simp [hd])]

theorem Memory.read_erase_self (m : Memory) (a : Nat) : Memory.read (Memory.erase m a) a = Memory.unlisted a :=
  Memory.read_of_not_listed _ _ fun c hc => by simpa [Memory.erase] using (List.mem_filter.1 hc).2

theorem Memory.read_erase_of_ne (m : Memory) (a b : Nat) (h : b ≠ a) :
    Memory.read (Memory.erase m a) b = Memory.read m b := by
  induction m with
  | nil => rfl
  | cons c m ih =>
    unfold Memory.erase at *
    by_cases hc : c.1 = a
    · simp [hc, ih, Memory.read_cons, Ne.symm h]
    · simp [hc, ih, Memory.read_cons]

theorem Memory.read_insert (m : Memory) (a b : Nat) (v : Byte) (h : ∀ c ∈ m, c.1 ≠ a) :
    Memory.read (Memory.insert m a v) b = if b = a then v else Memory.read m b := by
  induction m with
  | nil => simp [Memory.insert, Memory.read_cons, eq_comm]
  | cons c m ih =>
    have hc : c.1 ≠ a := h c (by simp)
    have ih := ih fun d hd => h d (by simp [hd])
    unfold Memory.insert
    split
    · simp [Memory.read_cons, eq_comm]
    · rw [Memory.read_cons, ih, Memory.read_cons]
      by_cases hb : b = a
      · subst hb; simp [hc]
      · simp [hb]

/-- A read after a write, of any memory: the byte written at the address written, and every other byte as before. -/
theorem Memory.read_write (m : Memory) (a b : Nat) (v : Byte) :
    Memory.read (Memory.write m a v) b = if b = a then v else Memory.read m b := by
  unfold Memory.write
  split
  · rename_i hv
    by_cases hb : b = a
    · subst hb; simp [Memory.read_erase_self, hv]
    · simp [hb, Memory.read_erase_of_ne]
  · rw [Memory.read_insert _ _ _ _ fun c hc => by simpa [Memory.erase] using (List.mem_filter.1 hc).2]
    by_cases hb : b = a
    · simp [hb]
    · simp [hb, Memory.read_erase_of_ne]

/-- Reads after a run of writes: the listed bytes in their range, and every other byte as before. -/
theorem Memory.read_writeAll (m : Memory) (a b : Nat) (bs : List Byte) :
    Memory.read (Memory.writeAll m a bs) b =
      if a ≤ b ∧ b < a + bs.length then bs.getD (b - a) 0 else Memory.read m b := by
  induction bs generalizing m a with
  | nil => simp [Memory.writeAll]
  | cons v bs ih =>
    rw [Memory.writeAll, ih, Memory.read_write]
    by_cases h1 : a + 1 ≤ b ∧ b < a + 1 + bs.length
    · have h2 : a ≤ b ∧ b < a + (v :: bs).length := by simp; omega
      rw [if_pos h1, if_pos h2, show b - a = (b - (a + 1)) + 1 by omega, List.getD_cons_succ]
    · rw [if_neg h1]
      by_cases h2 : b = a
      · subst h2; simp
      · have h3 : ¬(a ≤ b ∧ b < a + (v :: bs).length) := by simp; omega
        rw [if_neg h2, if_neg h3]

@[simp] theorem Memory.length_readAll (m : Memory) (a n : Nat) : (Memory.readAll m a n).length = n := by
  simp [Memory.readAll]

theorem Memory.getD_readAll (m : Memory) (a n k : Nat) (h : k < n) :
    (Memory.readAll m a n).getD k 0 = Memory.read m (a + k) := by
  simp [Memory.readAll, List.getD_eq_getElem?_getD, h]

theorem Memory.wf_erase (m : Memory) (a : Nat) (h : Memory.wf m) : Memory.wf (Memory.erase m a) :=
  ⟨h.1.filter _, fun c hc => h.2 c (List.mem_filter.1 hc).1⟩

theorem Memory.mem_insert (m : Memory) (a : Nat) (v : Byte) (c : Host.Cell) :
    c ∈ Memory.insert m a v ↔ c = (a, v) ∨ c ∈ m := by
  induction m with
  | nil => simp [Memory.insert]
  | cons d m ih =>
    unfold Memory.insert
    split <;> simp [ih, or_left_comm]

theorem Memory.sorted_insert (m : Memory) (a : Nat) (v : Byte) (h : m.Pairwise (fun c d => c.1 < d.1))
    (hn : ∀ c ∈ m, c.1 ≠ a) : (Memory.insert m a v).Pairwise (fun c d => c.1 < d.1) := by
  induction m with
  | nil => simp [Memory.insert]
  | cons c m ih =>
    rw [List.pairwise_cons] at h
    have hc : c.1 ≠ a := hn c (by simp)
    unfold Memory.insert
    split
    · rename_i hlt
      simp only [List.pairwise_cons, List.mem_cons]
      refine ⟨?_, h.1, h.2⟩
      rintro d (rfl | hd)
      · exact hlt
      · exact lt_trans hlt (h.1 d hd)
    · rw [List.pairwise_cons]
      refine ⟨fun d hd => ?_, ih h.2 fun d hd => hn d (by simp [hd])⟩
      rcases (Memory.mem_insert m a v d).1 hd with rfl | hd
      · exact lt_of_le_of_ne (by omega) hc
      · exact h.1 d hd

/-- A write at an address that exists keeps the canonical form. -/
theorem Memory.wf_write (m : Memory) (a : Nat) (v : Byte) (ha : a < 4096) (h : Memory.wf m) :
    Memory.wf (Memory.write m a v) := by
  have he := Memory.wf_erase m a h
  unfold Memory.write
  split
  · exact he
  · rename_i hv
    have hn : ∀ c ∈ Memory.erase m a, c.1 ≠ a := fun c hc => by
      simpa [Memory.erase] using (List.mem_filter.1 hc).2
    refine ⟨Memory.sorted_insert _ _ _ he.1 hn, fun c hc => ?_⟩
    rcases (Memory.mem_insert _ a v c).1 hc with rfl | hc
    · exact ⟨ha, hv⟩
    · exact he.2 c hc

/-- A run of writes inside the address space keeps the canonical form. -/
theorem Memory.wf_writeAll (m : Memory) (a : Nat) (bs : List Byte) (ha : a + bs.length ≤ 4096) (h : Memory.wf m) :
    Memory.wf (Memory.writeAll m a bs) := by
  induction bs generalizing m a with
  | nil => exact h
  | cons v bs ih =>
    simp only [List.length_cons] at ha
    exact ih _ _ (by omega) (Memory.wf_write m a v (by omega) h)

/-- Memory after a reset with a given FONT: that font's bytes, and zero above them. -/
theorem Memory.read_ofFont (font : Font) (a : Nat) :
    Memory.read (Memory.ofFont font) a = if h : a < 80 then font[a] else 0 := by
  rw [Memory.ofFont, Memory.read_writeAll]
  split
  · rename_i h
    have h : a < 80 := by simpa using h
    simp [h, List.getD_eq_getElem?_getD]
  · rename_i h
    have h : ¬a < 80 := by simpa using h
    have hl : fontBytes.length ≤ a := le_trans (by decide) (not_lt.1 h)
    rw [dif_neg h, Memory.read_nil, Memory.unlisted, List.getD_eq_default _ _ hl]

/-- Memory after a reset has the canonical form, whatever FONT is. -/
theorem Memory.wf_ofFont (font : Font) : Memory.wf (Memory.ofFont font) :=
  Memory.wf_writeAll _ _ _ (by simp) ⟨List.Pairwise.nil, by simp⟩

/-- The default FONT is what memory that lists nothing reads as. -/
theorem Memory.ofFont_default : Memory.ofFont fontDefault = [] := by decide +kernel

theorem Memory.wf_reset : Memory.wf State.reset.mem := ⟨List.Pairwise.nil, by simp [State.reset]⟩

end Sys2Proof.Machine
end

