-- ==== Sys2Proof/Laws/State.lean ====
section
/-! SUPPORT. What each update of the state does to each field, and to a read of a general register: all true by unfolding,
so that no later proof unfolds a record update. -/

namespace Sys2Proof.Machine

@[simp] theorem setReg_v (s : State) (x : RegIdx) (b : Byte) : (s.setReg x b).v = s.v.set x.toNat b x.isLt := rfl
@[simp] theorem setReg_i (s : State) (x : RegIdx) (b : Byte) : (s.setReg x b).i = s.i := rfl
@[simp] theorem setReg_pc (s : State) (x : RegIdx) (b : Byte) : (s.setReg x b).pc = s.pc := rfl
@[simp] theorem setReg_stk (s : State) (x : RegIdx) (b : Byte) : (s.setReg x b).stk = s.stk := rfl
@[simp] theorem setReg_sp (s : State) (x : RegIdx) (b : Byte) : (s.setReg x b).sp = s.sp := rfl
@[simp] theorem setReg_dt (s : State) (x : RegIdx) (b : Byte) : (s.setReg x b).dt = s.dt := rfl
@[simp] theorem setReg_st (s : State) (x : RegIdx) (b : Byte) : (s.setReg x b).st = s.st := rfl
@[simp] theorem setReg_key (s : State) (x : RegIdx) (b : Byte) : (s.setReg x b).key = s.key := rfl
@[simp] theorem setReg_pix (s : State) (x : RegIdx) (b : Byte) : (s.setReg x b).pix = s.pix := rfl
@[simp] theorem setReg_mem (s : State) (x : RegIdx) (b : Byte) : (s.setReg x b).mem = s.mem := rfl
@[simp] theorem setReg_tacc (s : State) (x : RegIdx) (b : Byte) : (s.setReg x b).tacc = s.tacc := rfl
@[simp] theorem setReg_iacc (s : State) (x : RegIdx) (b : Byte) : (s.setReg x b).iacc = s.iacc := rfl
@[simp] theorem setReg_rate (s : State) (x : RegIdx) (b : Byte) : (s.setReg x b).rate = s.rate := rfl
@[simp] theorem setReg_fault (s : State) (x : RegIdx) (b : Byte) : (s.setReg x b).fault = s.fault := rfl
@[simp] theorem setReg_draws (s : State) (x : RegIdx) (b : Byte) : (s.setReg x b).draws = s.draws := rfl

@[simp] theorem setI_v (s : State) (w : Word) : (s.setI w).v = s.v := rfl
@[simp] theorem setI_i (s : State) (w : Word) : (s.setI w).i = w := rfl
@[simp] theorem setI_pc (s : State) (w : Word) : (s.setI w).pc = s.pc := rfl
@[simp] theorem setI_stk (s : State) (w : Word) : (s.setI w).stk = s.stk := rfl
@[simp] theorem setI_sp (s : State) (w : Word) : (s.setI w).sp = s.sp := rfl
@[simp] theorem setI_dt (s : State) (w : Word) : (s.setI w).dt = s.dt := rfl
@[simp] theorem setI_st (s : State) (w : Word) : (s.setI w).st = s.st := rfl
@[simp] theorem setI_key (s : State) (w : Word) : (s.setI w).key = s.key := rfl
@[simp] theorem setI_pix (s : State) (w : Word) : (s.setI w).pix = s.pix := rfl
@[simp] theorem setI_mem (s : State) (w : Word) : (s.setI w).mem = s.mem := rfl
@[simp] theorem setI_tacc (s : State) (w : Word) : (s.setI w).tacc = s.tacc := rfl
@[simp] theorem setI_iacc (s : State) (w : Word) : (s.setI w).iacc = s.iacc := rfl
@[simp] theorem setI_rate (s : State) (w : Word) : (s.setI w).rate = s.rate := rfl
@[simp] theorem setI_fault (s : State) (w : Word) : (s.setI w).fault = s.fault := rfl
@[simp] theorem setI_draws (s : State) (w : Word) : (s.setI w).draws = s.draws := rfl
@[simp] theorem setI_reg (s : State) (w : Word) (r : RegIdx) : (s.setI w).reg r = s.reg r := rfl

@[simp] theorem setPc_v (s : State) (w : Word) : (s.setPc w).v = s.v := rfl
@[simp] theorem setPc_i (s : State) (w : Word) : (s.setPc w).i = s.i := rfl
@[simp] theorem setPc_pc (s : State) (w : Word) : (s.setPc w).pc = w := rfl
@[simp] theorem setPc_stk (s : State) (w : Word) : (s.setPc w).stk = s.stk := rfl
@[simp] theorem setPc_sp (s : State) (w : Word) : (s.setPc w).sp = s.sp := rfl
@[simp] theorem setPc_dt (s : State) (w : Word) : (s.setPc w).dt = s.dt := rfl
@[simp] theorem setPc_st (s : State) (w : Word) : (s.setPc w).st = s.st := rfl
@[simp] theorem setPc_key (s : State) (w : Word) : (s.setPc w).key = s.key := rfl
@[simp] theorem setPc_pix (s : State) (w : Word) : (s.setPc w).pix = s.pix := rfl
@[simp] theorem setPc_mem (s : State) (w : Word) : (s.setPc w).mem = s.mem := rfl
@[simp] theorem setPc_tacc (s : State) (w : Word) : (s.setPc w).tacc = s.tacc := rfl
@[simp] theorem setPc_iacc (s : State) (w : Word) : (s.setPc w).iacc = s.iacc := rfl
@[simp] theorem setPc_rate (s : State) (w : Word) : (s.setPc w).rate = s.rate := rfl
@[simp] theorem setPc_fault (s : State) (w : Word) : (s.setPc w).fault = s.fault := rfl
@[simp] theorem setPc_draws (s : State) (w : Word) : (s.setPc w).draws = s.draws := rfl
@[simp] theorem setPc_reg (s : State) (w : Word) (r : RegIdx) : (s.setPc w).reg r = s.reg r := rfl

@[simp] theorem setStack_v (s : State) (k : Vector Word 16) (n : Fin 17) : (s.setStack k n).v = s.v := rfl
@[simp] theorem setStack_i (s : State) (k : Vector Word 16) (n : Fin 17) : (s.setStack k n).i = s.i := rfl
@[simp] theorem setStack_pc (s : State) (k : Vector Word 16) (n : Fin 17) : (s.setStack k n).pc = s.pc := rfl
@[simp] theorem setStack_stk (s : State) (k : Vector Word 16) (n : Fin 17) : (s.setStack k n).stk = k := rfl
@[simp] theorem setStack_sp (s : State) (k : Vector Word 16) (n : Fin 17) : (s.setStack k n).sp = n := rfl
@[simp] theorem setStack_dt (s : State) (k : Vector Word 16) (n : Fin 17) : (s.setStack k n).dt = s.dt := rfl
@[simp] theorem setStack_st (s : State) (k : Vector Word 16) (n : Fin 17) : (s.setStack k n).st = s.st := rfl
@[simp] theorem setStack_key (s : State) (k : Vector Word 16) (n : Fin 17) : (s.setStack k n).key = s.key := rfl
@[simp] theorem setStack_pix (s : State) (k : Vector Word 16) (n : Fin 17) : (s.setStack k n).pix = s.pix := rfl
@[simp] theorem setStack_mem (s : State) (k : Vector Word 16) (n : Fin 17) : (s.setStack k n).mem = s.mem := rfl
@[simp] theorem setStack_tacc (s : State) (k : Vector Word 16) (n : Fin 17) : (s.setStack k n).tacc = s.tacc := rfl
@[simp] theorem setStack_iacc (s : State) (k : Vector Word 16) (n : Fin 17) : (s.setStack k n).iacc = s.iacc := rfl
@[simp] theorem setStack_rate (s : State) (k : Vector Word 16) (n : Fin 17) : (s.setStack k n).rate = s.rate := rfl
@[simp] theorem setStack_fault (s : State) (k : Vector Word 16) (n : Fin 17) : (s.setStack k n).fault = s.fault := rfl
@[simp] theorem setStack_draws (s : State) (k : Vector Word 16) (n : Fin 17) : (s.setStack k n).draws = s.draws := rfl
@[simp] theorem setStack_reg (s : State) (k : Vector Word 16) (n : Fin 17) (r : RegIdx) : (s.setStack k n).reg r = s.reg r := rfl

@[simp] theorem setDt_v (s : State) (b : Byte) : (s.setDt b).v = s.v := rfl
@[simp] theorem setDt_i (s : State) (b : Byte) : (s.setDt b).i = s.i := rfl
@[simp] theorem setDt_pc (s : State) (b : Byte) : (s.setDt b).pc = s.pc := rfl
@[simp] theorem setDt_stk (s : State) (b : Byte) : (s.setDt b).stk = s.stk := rfl
@[simp] theorem setDt_sp (s : State) (b : Byte) : (s.setDt b).sp = s.sp := rfl
@[simp] theorem setDt_dt (s : State) (b : Byte) : (s.setDt b).dt = b := rfl
@[simp] theorem setDt_st (s : State) (b : Byte) : (s.setDt b).st = s.st := rfl
@[simp] theorem setDt_key (s : State) (b : Byte) : (s.setDt b).key = s.key := rfl
@[simp] theorem setDt_pix (s : State) (b : Byte) : (s.setDt b).pix = s.pix := rfl
@[simp] theorem setDt_mem (s : State) (b : Byte) : (s.setDt b).mem = s.mem := rfl
@[simp] theorem setDt_tacc (s : State) (b : Byte) : (s.setDt b).tacc = s.tacc := rfl
@[simp] theorem setDt_iacc (s : State) (b : Byte) : (s.setDt b).iacc = s.iacc := rfl
@[simp] theorem setDt_rate (s : State) (b : Byte) : (s.setDt b).rate = s.rate := rfl
@[simp] theorem setDt_fault (s : State) (b : Byte) : (s.setDt b).fault = s.fault := rfl
@[simp] theorem setDt_draws (s : State) (b : Byte) : (s.setDt b).draws = s.draws := rfl
@[simp] theorem setDt_reg (s : State) (b : Byte) (r : RegIdx) : (s.setDt b).reg r = s.reg r := rfl

@[simp] theorem setSt_v (s : State) (b : Byte) : (s.setSt b).v = s.v := rfl
@[simp] theorem setSt_i (s : State) (b : Byte) : (s.setSt b).i = s.i := rfl
@[simp] theorem setSt_pc (s : State) (b : Byte) : (s.setSt b).pc = s.pc := rfl
@[simp] theorem setSt_stk (s : State) (b : Byte) : (s.setSt b).stk = s.stk := rfl
@[simp] theorem setSt_sp (s : State) (b : Byte) : (s.setSt b).sp = s.sp := rfl
@[simp] theorem setSt_dt (s : State) (b : Byte) : (s.setSt b).dt = s.dt := rfl
@[simp] theorem setSt_st (s : State) (b : Byte) : (s.setSt b).st = b := rfl
@[simp] theorem setSt_key (s : State) (b : Byte) : (s.setSt b).key = s.key := rfl
@[simp] theorem setSt_pix (s : State) (b : Byte) : (s.setSt b).pix = s.pix := rfl
@[simp] theorem setSt_mem (s : State) (b : Byte) : (s.setSt b).mem = s.mem := rfl
@[simp] theorem setSt_tacc (s : State) (b : Byte) : (s.setSt b).tacc = s.tacc := rfl
@[simp] theorem setSt_iacc (s : State) (b : Byte) : (s.setSt b).iacc = s.iacc := rfl
@[simp] theorem setSt_rate (s : State) (b : Byte) : (s.setSt b).rate = s.rate := rfl
@[simp] theorem setSt_fault (s : State) (b : Byte) : (s.setSt b).fault = s.fault := rfl
@[simp] theorem setSt_draws (s : State) (b : Byte) : (s.setSt b).draws = s.draws := rfl
@[simp] theorem setSt_reg (s : State) (b : Byte) (r : RegIdx) : (s.setSt b).reg r = s.reg r := rfl

@[simp] theorem setKey_v (s : State) (k : Vector Bool 16) : (s.setKey k).v = s.v := rfl
@[simp] theorem setKey_i (s : State) (k : Vector Bool 16) : (s.setKey k).i = s.i := rfl
@[simp] theorem setKey_pc (s : State) (k : Vector Bool 16) : (s.setKey k).pc = s.pc := rfl
@[simp] theorem setKey_stk (s : State) (k : Vector Bool 16) : (s.setKey k).stk = s.stk := rfl
@[simp] theorem setKey_sp (s : State) (k : Vector Bool 16) : (s.setKey k).sp = s.sp := rfl
@[simp] theorem setKey_dt (s : State) (k : Vector Bool 16) : (s.setKey k).dt = s.dt := rfl
@[simp] theorem setKey_st (s : State) (k : Vector Bool 16) : (s.setKey k).st = s.st := rfl
@[simp] theorem setKey_key (s : State) (k : Vector Bool 16) : (s.setKey k).key = k := rfl
@[simp] theorem setKey_pix (s : State) (k : Vector Bool 16) : (s.setKey k).pix = s.pix := rfl
@[simp] theorem setKey_mem (s : State) (k : Vector Bool 16) : (s.setKey k).mem = s.mem := rfl
@[simp] theorem setKey_tacc (s : State) (k : Vector Bool 16) : (s.setKey k).tacc = s.tacc := rfl
@[simp] theorem setKey_iacc (s : State) (k : Vector Bool 16) : (s.setKey k).iacc = s.iacc := rfl
@[simp] theorem setKey_rate (s : State) (k : Vector Bool 16) : (s.setKey k).rate = s.rate := rfl
@[simp] theorem setKey_fault (s : State) (k : Vector Bool 16) : (s.setKey k).fault = s.fault := rfl
@[simp] theorem setKey_draws (s : State) (k : Vector Bool 16) : (s.setKey k).draws = s.draws := rfl
@[simp] theorem setKey_reg (s : State) (k : Vector Bool 16) (r : RegIdx) : (s.setKey k).reg r = s.reg r := rfl

@[simp] theorem setPix_v (s : State) (p : Pixels) : (s.setPix p).v = s.v := rfl
@[simp] theorem setPix_i (s : State) (p : Pixels) : (s.setPix p).i = s.i := rfl
@[simp] theorem setPix_pc (s : State) (p : Pixels) : (s.setPix p).pc = s.pc := rfl
@[simp] theorem setPix_stk (s : State) (p : Pixels) : (s.setPix p).stk = s.stk := rfl
@[simp] theorem setPix_sp (s : State) (p : Pixels) : (s.setPix p).sp = s.sp := rfl
@[simp] theorem setPix_dt (s : State) (p : Pixels) : (s.setPix p).dt = s.dt := rfl
@[simp] theorem setPix_st (s : State) (p : Pixels) : (s.setPix p).st = s.st := rfl
@[simp] theorem setPix_key (s : State) (p : Pixels) : (s.setPix p).key = s.key := rfl
@[simp] theorem setPix_pix (s : State) (p : Pixels) : (s.setPix p).pix = p := rfl
@[simp] theorem setPix_mem (s : State) (p : Pixels) : (s.setPix p).mem = s.mem := rfl
@[simp] theorem setPix_tacc (s : State) (p : Pixels) : (s.setPix p).tacc = s.tacc := rfl
@[simp] theorem setPix_iacc (s : State) (p : Pixels) : (s.setPix p).iacc = s.iacc := rfl
@[simp] theorem setPix_rate (s : State) (p : Pixels) : (s.setPix p).rate = s.rate := rfl
@[simp] theorem setPix_fault (s : State) (p : Pixels) : (s.setPix p).fault = s.fault := rfl
@[simp] theorem setPix_draws (s : State) (p : Pixels) : (s.setPix p).draws = s.draws := rfl
@[simp] theorem setPix_reg (s : State) (p : Pixels) (r : RegIdx) : (s.setPix p).reg r = s.reg r := rfl

@[simp] theorem setMem_v (s : State) (m : Memory) : (s.setMem m).v = s.v := rfl
@[simp] theorem setMem_i (s : State) (m : Memory) : (s.setMem m).i = s.i := rfl
@[simp] theorem setMem_pc (s : State) (m : Memory) : (s.setMem m).pc = s.pc := rfl
@[simp] theorem setMem_stk (s : State) (m : Memory) : (s.setMem m).stk = s.stk := rfl
@[simp] theorem setMem_sp (s : State) (m : Memory) : (s.setMem m).sp = s.sp := rfl
@[simp] theorem setMem_dt (s : State) (m : Memory) : (s.setMem m).dt = s.dt := rfl
@[simp] theorem setMem_st (s : State) (m : Memory) : (s.setMem m).st = s.st := rfl
@[simp] theorem setMem_key (s : State) (m : Memory) : (s.setMem m).key = s.key := rfl
@[simp] theorem setMem_pix (s : State) (m : Memory) : (s.setMem m).pix = s.pix := rfl
@[simp] theorem setMem_mem (s : State) (m : Memory) : (s.setMem m).mem = m := rfl
@[simp] theorem setMem_tacc (s : State) (m : Memory) : (s.setMem m).tacc = s.tacc := rfl
@[simp] theorem setMem_iacc (s : State) (m : Memory) : (s.setMem m).iacc = s.iacc := rfl
@[simp] theorem setMem_rate (s : State) (m : Memory) : (s.setMem m).rate = s.rate := rfl
@[simp] theorem setMem_fault (s : State) (m : Memory) : (s.setMem m).fault = s.fault := rfl
@[simp] theorem setMem_draws (s : State) (m : Memory) : (s.setMem m).draws = s.draws := rfl
@[simp] theorem setMem_reg (s : State) (m : Memory) (r : RegIdx) : (s.setMem m).reg r = s.reg r := rfl

@[simp] theorem setTacc_v (s : State) (q : Rat) : (s.setTacc q).v = s.v := rfl
@[simp] theorem setTacc_i (s : State) (q : Rat) : (s.setTacc q).i = s.i := rfl
@[simp] theorem setTacc_pc (s : State) (q : Rat) : (s.setTacc q).pc = s.pc := rfl
@[simp] theorem setTacc_stk (s : State) (q : Rat) : (s.setTacc q).stk = s.stk := rfl
@[simp] theorem setTacc_sp (s : State) (q : Rat) : (s.setTacc q).sp = s.sp := rfl
@[simp] theorem setTacc_dt (s : State) (q : Rat) : (s.setTacc q).dt = s.dt := rfl
@[simp] theorem setTacc_st (s : State) (q : Rat) : (s.setTacc q).st = s.st := rfl
@[simp] theorem setTacc_key (s : State) (q : Rat) : (s.setTacc q).key = s.key := rfl
@[simp] theorem setTacc_pix (s : State) (q : Rat) : (s.setTacc q).pix = s.pix := rfl
@[simp] theorem setTacc_mem (s : State) (q : Rat) : (s.setTacc q).mem = s.mem := rfl
@[simp] theorem setTacc_tacc (s : State) (q : Rat) : (s.setTacc q).tacc = q := rfl
@[simp] theorem setTacc_iacc (s : State) (q : Rat) : (s.setTacc q).iacc = s.iacc := rfl
@[simp] theorem setTacc_rate (s : State) (q : Rat) : (s.setTacc q).rate = s.rate := rfl
@[simp] theorem setTacc_fault (s : State) (q : Rat) : (s.setTacc q).fault = s.fault := rfl
@[simp] theorem setTacc_draws (s : State) (q : Rat) : (s.setTacc q).draws = s.draws := rfl
@[simp] theorem setTacc_reg (s : State) (q : Rat) (r : RegIdx) : (s.setTacc q).reg r = s.reg r := rfl

@[simp] theorem setIacc_v (s : State) (q : Rat) : (s.setIacc q).v = s.v := rfl
@[simp] theorem setIacc_i (s : State) (q : Rat) : (s.setIacc q).i = s.i := rfl
@[simp] theorem setIacc_pc (s : State) (q : Rat) : (s.setIacc q).pc = s.pc := rfl
@[simp] theorem setIacc_stk (s : State) (q : Rat) : (s.setIacc q).stk = s.stk := rfl
@[simp] theorem setIacc_sp (s : State) (q : Rat) : (s.setIacc q).sp = s.sp := rfl
@[simp] theorem setIacc_dt (s : State) (q : Rat) : (s.setIacc q).dt = s.dt := rfl
@[simp] theorem setIacc_st (s : State) (q : Rat) : (s.setIacc q).st = s.st := rfl
@[simp] theorem setIacc_key (s : State) (q : Rat) : (s.setIacc q).key = s.key := rfl
@[simp] theorem setIacc_pix (s : State) (q : Rat) : (s.setIacc q).pix = s.pix := rfl
@[simp] theorem setIacc_mem (s : State) (q : Rat) : (s.setIacc q).mem = s.mem := rfl
@[simp] theorem setIacc_tacc (s : State) (q : Rat) : (s.setIacc q).tacc = s.tacc := rfl
@[simp] theorem setIacc_iacc (s : State) (q : Rat) : (s.setIacc q).iacc = q := rfl
@[simp] theorem setIacc_rate (s : State) (q : Rat) : (s.setIacc q).rate = s.rate := rfl
@[simp] theorem setIacc_fault (s : State) (q : Rat) : (s.setIacc q).fault = s.fault := rfl
@[simp] theorem setIacc_draws (s : State) (q : Rat) : (s.setIacc q).draws = s.draws := rfl
@[simp] theorem setIacc_reg (s : State) (q : Rat) (r : RegIdx) : (s.setIacc q).reg r = s.reg r := rfl

@[simp] theorem setRate_v (s : State) (r : Nat) : (s.setRate r).v = s.v := rfl
@[simp] theorem setRate_i (s : State) (r : Nat) : (s.setRate r).i = s.i := rfl
@[simp] theorem setRate_pc (s : State) (r : Nat) : (s.setRate r).pc = s.pc := rfl
@[simp] theorem setRate_stk (s : State) (r : Nat) : (s.setRate r).stk = s.stk := rfl
@[simp] theorem setRate_sp (s : State) (r : Nat) : (s.setRate r).sp = s.sp := rfl
@[simp] theorem setRate_dt (s : State) (r : Nat) : (s.setRate r).dt = s.dt := rfl
@[simp] theorem setRate_st (s : State) (r : Nat) : (s.setRate r).st = s.st := rfl
@[simp] theorem setRate_key (s : State) (r : Nat) : (s.setRate r).key = s.key := rfl
@[simp] theorem setRate_pix (s : State) (r : Nat) : (s.setRate r).pix = s.pix := rfl
@[simp] theorem setRate_mem (s : State) (r : Nat) : (s.setRate r).mem = s.mem := rfl
@[simp] theorem setRate_tacc (s : State) (r : Nat) : (s.setRate r).tacc = s.tacc := rfl
@[simp] theorem setRate_iacc (s : State) (r : Nat) : (s.setRate r).iacc = s.iacc := rfl
@[simp] theorem setRate_rate (s : State) (r : Nat) : (s.setRate r).rate = r := rfl
@[simp] theorem setRate_fault (s : State) (r : Nat) : (s.setRate r).fault = s.fault := rfl
@[simp] theorem setRate_draws (s : State) (r : Nat) : (s.setRate r).draws = s.draws := rfl
@[simp] theorem setRate_reg (s : State) (n : Nat) (r : RegIdx) : (s.setRate n).reg r = s.reg r := rfl

@[simp] theorem setDraws_v (s : State) (n : Nat) : (s.setDraws n).v = s.v := rfl
@[simp] theorem setDraws_i (s : State) (n : Nat) : (s.setDraws n).i = s.i := rfl
@[simp] theorem setDraws_pc (s : State) (n : Nat) : (s.setDraws n).pc = s.pc := rfl
@[simp] theorem setDraws_stk (s : State) (n : Nat) : (s.setDraws n).stk = s.stk := rfl
@[simp] theorem setDraws_sp (s : State) (n : Nat) : (s.setDraws n).sp = s.sp := rfl
@[simp] theorem setDraws_dt (s : State) (n : Nat) : (s.setDraws n).dt = s.dt := rfl
@[simp] theorem setDraws_st (s : State) (n : Nat) : (s.setDraws n).st = s.st := rfl
@[simp] theorem setDraws_key (s : State) (n : Nat) : (s.setDraws n).key = s.key := rfl
@[simp] theorem setDraws_pix (s : State) (n : Nat) : (s.setDraws n).pix = s.pix := rfl
@[simp] theorem setDraws_mem (s : State) (n : Nat) : (s.setDraws n).mem = s.mem := rfl
@[simp] theorem setDraws_tacc (s : State) (n : Nat) : (s.setDraws n).tacc = s.tacc := rfl
@[simp] theorem setDraws_iacc (s : State) (n : Nat) : (s.setDraws n).iacc = s.iacc := rfl
@[simp] theorem setDraws_rate (s : State) (n : Nat) : (s.setDraws n).rate = s.rate := rfl
@[simp] theorem setDraws_fault (s : State) (n : Nat) : (s.setDraws n).fault = s.fault := rfl
@[simp] theorem setDraws_draws (s : State) (n : Nat) : (s.setDraws n).draws = n := rfl
@[simp] theorem setDraws_reg (s : State) (n : Nat) (r : RegIdx) : (s.setDraws n).reg r = s.reg r := rfl

@[simp] theorem takeFault_v (f : Fault) (s : State) : (takeFault f s).v = s.v := rfl
@[simp] theorem takeFault_i (f : Fault) (s : State) : (takeFault f s).i = s.i := rfl
@[simp] theorem takeFault_pc (f : Fault) (s : State) : (takeFault f s).pc = s.pc := rfl
@[simp] theorem takeFault_stk (f : Fault) (s : State) : (takeFault f s).stk = s.stk := rfl
@[simp] theorem takeFault_sp (f : Fault) (s : State) : (takeFault f s).sp = s.sp := rfl
@[simp] theorem takeFault_dt (f : Fault) (s : State) : (takeFault f s).dt = s.dt := rfl
@[simp] theorem takeFault_st (f : Fault) (s : State) : (takeFault f s).st = s.st := rfl
@[simp] theorem takeFault_key (f : Fault) (s : State) : (takeFault f s).key = s.key := rfl
@[simp] theorem takeFault_pix (f : Fault) (s : State) : (takeFault f s).pix = s.pix := rfl
@[simp] theorem takeFault_mem (f : Fault) (s : State) : (takeFault f s).mem = s.mem := rfl
@[simp] theorem takeFault_tacc (f : Fault) (s : State) : (takeFault f s).tacc = s.tacc := rfl
@[simp] theorem takeFault_iacc (f : Fault) (s : State) : (takeFault f s).iacc = s.iacc := rfl
@[simp] theorem takeFault_rate (f : Fault) (s : State) : (takeFault f s).rate = s.rate := rfl
@[simp] theorem takeFault_fault (f : Fault) (s : State) : (takeFault f s).fault = some f := rfl
@[simp] theorem takeFault_draws (f : Fault) (s : State) : (takeFault f s).draws = s.draws := rfl
@[simp] theorem takeFault_reg (f : Fault) (s : State) (r : RegIdx) : (takeFault f s).reg r = s.reg r := rfl

/-- A general register after a write: the byte written where the index is the one written, else as before. -/
theorem reg_setReg (s : State) (x r : RegIdx) (b : Byte) : (s.setReg x b).reg r = if r = x then b else s.reg r := by
  unfold State.reg State.setReg
  simp only [Vector.getElem_set, BitVec.toNat_inj]
  by_cases h : x = r
  · simp [h]
  · simp [h, Ne.symm h]

@[simp] theorem reg_setReg_self (s : State) (x : RegIdx) (b : Byte) : (s.setReg x b).reg x = b := by simp [reg_setReg]

theorem reg_setReg_of_ne (s : State) (x r : RegIdx) (b : Byte) (h : r ≠ x) : (s.setReg x b).reg r = s.reg r := by
  simp [reg_setReg, h]

end Sys2Proof.Machine
end

