-- ==== Sys2Proof/Laws/Ops.lean ====
section
/-! SUPPORT. One lemma per shared operation that says once everything it can do; later proofs cite these and do not unfold
the operation. -/

namespace Sys2Proof.Machine

@[simp] theorem settle_ok (s t : State) : settle s (.ok t) = .next t := rfl

@[simp] theorem settle_error (s : State) (f : Fault) : settle s (.error f) = .next (takeFault f s) := rfl

/-- A reset with the default of FONT is the reset state. -/
theorem State.resetWith_default : State.resetWith fontDefault = State.reset := by
  rw [State.resetWith, Memory.ofFont_default]
  rfl

@[simp] theorem State.resetWith_mem (font : Font) : (State.resetWith font).mem = Memory.ofFont font := rfl

/-- FONT changes only memory. -/
theorem State.resetWith_frame (font : Font) : { State.resetWith font with mem := State.reset.mem } = State.reset := rfl

/-- An instruction that settles always answers a next state. -/
theorem settle_cases (s t : State) (r : Except Fault State) (h : settle s r = .next t) :
    r = .ok t ∨ ∃ f, r = .error f ∧ t = takeFault f s := by
  cases r with
  | ok u => simp only [settle_ok, Host.Outcome.next.injEq] at h; exact .inl (by rw [h])
  | error f => simp only [settle_error, Host.Outcome.next.injEq] at h; exact .inr ⟨f, rfl, h.symm⟩

theorem settle_is_next (s : State) (r : Except Fault State) : ∃ t, settle s r = .next t := by
  cases r <;> simp

/-- The skip: the pc only, by 2 or by nothing. -/
theorem skipIf_eq (c : Bool) (s : State) : skipIf c s = if c then s.setPc (s.pc + 2) else s := rfl

theorem skipIf_cases (c : Bool) (s : State) : skipIf c s = s.setPc (s.pc + 2) ∨ skipIf c s = s := by
  cases c <;> simp [skipIf]

/-- The skip leaves all but the pc as it was. -/
theorem skipIf_frame (c : Bool) (s : State) : { skipIf c s with pc := s.pc } = s := by
  cases c <;> rfl

@[simp] theorem skipIf_fault (c : Bool) (s : State) : (skipIf c s).fault = s.fault := by
  cases c <;> rfl

/-- A push fails exactly on a full stack; otherwise it writes the first free entry and counts it. -/
theorem pushStack_of_lt (a : Word) (s : State) (h : s.sp.val < 16) :
    pushStack a s = .ok (s.setStack (s.stk.set s.sp.val a h) ⟨s.sp.val + 1, Nat.succ_lt_succ h⟩) := by
  simp [pushStack, h]

theorem pushStack_of_full (a : Word) (s : State) (h : s.sp.val = 16) : pushStack a s = .error .stackOverflow := by
  simp [pushStack, h]

/-- A pop fails exactly on an empty stack; otherwise the newest entry goes to the pc. -/
theorem popStack_of_pos (s : State) (h : 0 < s.sp.val) :
    popStack s = .ok ((s.setStack s.stk ⟨s.sp.val - 1, by omega⟩).setPc (s.stk[s.sp.val - 1]'(by omega))) := by
  simp [popStack, h]

theorem popStack_of_empty (s : State) (h : s.sp.val = 0) : popStack s = .error .stackUnderflow := by
  simp [popStack, h]

theorem memRead_of_le (a : Nat) (s : State) (h : a ≤ 4095) : memRead a s = .ok (Memory.read s.mem a) := by
  simp [memRead, show ¬4095 < a by omega]

theorem memRead_of_gt (a : Nat) (s : State) (h : 4095 < a) : memRead a s = .error (.outOfRange .memory a) := by
  simp [memRead, h]

theorem memWrite_of_le (a : Nat) (b : Byte) (s : State) (h : a ≤ 4095) :
    memWrite a b s = .ok (s.setMem (Memory.write s.mem a b)) := by
  simp [memWrite, show ¬4095 < a by omega]

theorem memWrite_of_gt (a : Nat) (b : Byte) (s : State) (h : 4095 < a) :
    memWrite a b s = .error (.outOfRange .memory a) := by
  simp [memWrite, h]

theorem checkRange_ok (a n : Nat) (h : n = 0 ∨ a + n ≤ 4096) : checkRange a n = .ok () := by
  unfold checkRange
  rw [if_neg (by omega)]

theorem checkRange_error (a n : Nat) (h : 0 < n) (h' : 4096 < a + n) :
    checkRange a n = .error (.outOfRange .memory (max a 4096)) := by
  unfold checkRange
  rw [if_pos ⟨h, h'⟩]

/-- A range read inside the address space, or of nothing. -/
theorem readRange_ok (a n : Nat) (s : State) (h : n = 0 ∨ a + n ≤ 4096) :
    readRange a n s = .ok (Memory.readAll s.mem a n) := by
  simp [readRange, checkRange_ok a n h]

theorem readRange_error (a n : Nat) (s : State) (h : 0 < n) (h' : 4096 < a + n) :
    readRange a n s = .error (.outOfRange .memory (max a 4096)) := by
  simp [readRange, checkRange_error a n h h']

/-- A range write inside the address space, or of nothing. -/
theorem writeRange_ok (a : Nat) (bs : List Byte) (s : State) (h : bs.length = 0 ∨ a + bs.length ≤ 4096) :
    writeRange a bs s = .ok (s.setMem (Memory.writeAll s.mem a bs)) := by
  simp only [writeRange, checkRange_ok a bs.length h]

theorem writeRange_error (a : Nat) (bs : List Byte) (s : State) (h : 0 < bs.length) (h' : 4096 < a + bs.length) :
    writeRange a bs s = .error (.outOfRange .memory (max a 4096)) := by
  simp only [writeRange, checkRange_error a bs.length h h']

/-- The fetch inside memory: both bytes, the one at the lower address the higher half. -/
theorem fetch_of_le (s : State) (h : s.pc.toNat ≤ 4094) :
    fetch s = .ok (joinBytes (Memory.read s.mem s.pc.toNat) (Memory.read s.mem (s.pc.toNat + 1))) := by
  simp [fetch, memRead_of_le _ _ (show s.pc.toNat ≤ 4095 by omega), memRead_of_le _ _ (show s.pc.toNat + 1 ≤ 4095 by omega)]

/-- The fetch that would read past memory: the lowest address that does not exist is recorded. -/
theorem fetch_of_gt (s : State) (h : 4095 ≤ s.pc.toNat) :
    fetch s = .error (.outOfRange .memory (max s.pc.toNat 4096)) := by
  by_cases h1 : 4095 < s.pc.toNat
  · simp [fetch, memRead_of_gt _ _ h1, show max s.pc.toNat 4096 = s.pc.toNat by omega]
  · have h2 : s.pc.toNat = 4095 := by omega
    simp [fetch, h2, memRead]

/-- A fetch either has both bytes inside memory or fails with the range fault. -/
theorem fetch_cases (s : State) :
    (s.pc.toNat ≤ 4094 ∧
      fetch s = .ok (joinBytes (Memory.read s.mem s.pc.toNat) (Memory.read s.mem (s.pc.toNat + 1)))) ∨
    (4095 ≤ s.pc.toNat ∧ fetch s = .error (.outOfRange .memory (max s.pc.toNat 4096))) := by
  by_cases h : s.pc.toNat ≤ 4094
  · exact .inl ⟨h, fetch_of_le s h⟩
  · exact .inr ⟨by omega, fetch_of_gt s (by omega)⟩

/-- The key lookup: a key index is 0 to 15. -/
theorem keyAt_of_lt (k : Byte) (s : State) (h : k.toNat < 16) : keyAt k s = .ok (s.key[k.toNat]'h) := by
  simp [keyAt, h]

theorem keyAt_of_ge (k : Byte) (s : State) (h : 16 ≤ k.toNat) : keyAt k s = .error (.outOfRange .keypad k.toNat) := by
  simp [keyAt, show ¬k.toNat < 16 by omega]

/-- The lowest pressed key: it is pressed and no lower one is. -/
theorem lowestKey_some (s : State) (k : Fin 16) (h : lowestKey s = some k) :
    s.key[k.val] = true ∧ ∀ j : Fin 16, j < k → s.key[j.val] = false := by
  unfold lowestKey at h
  rw [List.find?_eq_some_iff_append] at h
  obtain ⟨hk, as, bs, hl, hn⟩ := h
  refine ⟨hk, fun j hj => ?_⟩
  have hs : (List.finRange 16).Pairwise (· < ·) := List.pairwise_lt_finRange 16
  rw [hl, List.pairwise_append] at hs
  have hm : j ∈ as ++ k :: bs := hl ▸ List.mem_finRange j
  rcases List.mem_append.1 hm with ha | ha
  · simpa using hn j ha
  · rcases List.mem_cons.1 ha with rfl | hb
    · exact absurd hj (lt_irrefl _)
    · exact absurd (lt_trans hj (List.rel_of_pairwise_cons hs.2.1 hb)) (lt_irrefl _)

theorem lowestKey_none (s : State) : lowestKey s = none ↔ ∀ j : Fin 16, s.key[j.val] = false := by
  simp [lowestKey]

@[simp] theorem length_regsUpTo (x : RegIdx) (s : State) : (regsUpTo x s).length = x.toNat + 1 := by
  simp [regsUpTo, rangeCount]

theorem getD_regsUpTo (x : RegIdx) (s : State) (k : Nat) (h : k ≤ x.toNat) :
    (regsUpTo x s).getD k 0 = s.reg (BitVec.ofNat 4 k) := by
  simp [regsUpTo, rangeCount, List.getD_eq_getElem?_getD, show k < x.toNat + 1 by omega]

@[simp] theorem length_decimalDigits (b : Byte) : (decimalDigits b).length = 3 := rfl

/-- Registers loaded from a list: those of the range take their bytes, the others are as before. -/
theorem setRegsFrom_reg (bs : List Byte) (k : Nat) (s : State) (r : RegIdx) (h : k + bs.length ≤ 16) :
    (setRegsFrom k bs s).reg r =
      if k ≤ r.toNat ∧ r.toNat < k + bs.length then bs.getD (r.toNat - k) 0 else s.reg r := by
  induction bs generalizing k s with
  | nil => simp [setRegsFrom]
  | cons b bs ih =>
    simp only [List.length_cons] at h
    rw [setRegsFrom, ih _ _ (by omega), reg_setReg]
    have hk : (BitVec.ofNat 4 k).toNat = k := by simp; omega
    by_cases h1 : k + 1 ≤ r.toNat ∧ r.toNat < k + 1 + bs.length
    · have h2 : k ≤ r.toNat ∧ r.toNat < k + (b :: bs).length := by simp; omega
      rw [if_pos h1, if_pos h2, show r.toNat - k = (r.toNat - (k + 1)) + 1 by omega, List.getD_cons_succ]
    · rw [if_neg h1]
      by_cases h2 : r = BitVec.ofNat 4 k
      · have h3 : r.toNat = k := by rw [h2, hk]
        have h4 : k ≤ r.toNat ∧ r.toNat < k + (b :: bs).length := by simp; omega
        rw [if_pos h2, if_pos h4, h3]
        simp
      · have h3 : r.toNat ≠ k := fun e => h2 (by apply BitVec.eq_of_toNat_eq; rw [hk, e])
        have h4 : ¬(k ≤ r.toNat ∧ r.toNat < k + (b :: bs).length) := by simp; omega
        rw [if_neg h2, if_neg h4]

/-- Registers loaded from a list: everything but the general registers is as before. -/
theorem setRegsFrom_frame (bs : List Byte) (k : Nat) (s : State) :
    { setRegsFrom k bs s with v := s.v } = s := by
  induction bs generalizing k s with
  | nil => rfl
  | cons b bs ih =>
    have h := ih (k + 1) (s.setReg (BitVec.ofNat 4 k) b)
    rw [setRegsFrom]
    exact (congrArg (fun t : State => { t with v := s.v }) h)

/-- A result with its flag: `VF` ends as the flag, whatever the destination. -/
theorem setResultFlag_reg (x : RegIdx) (r : Byte × Bool) (s : State) (q : RegIdx) :
    (setResultFlag x r s).reg q = if q = vfIdx then flagByte r.2 else if q = x then r.1 else s.reg q := by
  simp [setResultFlag, reg_setReg]

/-- A result with its flag: everything but the general registers is as before. -/
theorem setResultFlag_frame (x : RegIdx) (r : Byte × Bool) (s : State) : { setResultFlag x r s with v := s.v } = s := rfl

end Sys2Proof.Machine
end

