-- ==== Sys2Proof/Laws/Exec.lean ====
section
/-! SUPPORT. What an instruction can do, said once: the inversion of `exec`. Proofs about every instruction split on it and do
not unfold the meanings. -/

namespace Sys2Proof.Machine

/-- What `t` can be when `exec i s` answers `next t`, instruction by instruction. Only the eight instructions of
60_exceptions.md R280 can take a fault. -/
def ExecResult (i : Instr) (s t : State) : Prop :=
  match i with
  | .cls => t = s.setPix Pixels.blank
  | .ret =>
    (∃ f, t = takeFault f s) ∨
    ∃ h : 0 < s.sp.val, t = (s.setStack s.stk ⟨s.sp.val - 1, by omega⟩).setPc (s.stk[s.sp.val - 1]'(by omega))
  | .call nnn =>
    (∃ f, t = takeFault f s) ∨
    ∃ h : s.sp.val < 16,
      t = (s.setStack (s.stk.set s.sp.val s.pc h) ⟨s.sp.val + 1, Nat.succ_lt_succ h⟩).setPc (addrWord nnn)
  | .jp nnn => t = s.setPc (addrWord nnn)
  | .jpV0 nnn => t = s.setPc (addrWord nnn + byteWord (s.reg 0))
  | .seImm _ _ | .sneImm _ _ | .seReg _ _ | .sneReg _ _ => ∃ c, t = skipIf c s
  | .skp _ | .sknp _ => (∃ f, t = takeFault f s) ∨ ∃ c, t = skipIf c s
  | .ldImm x _ | .addImm x _ | .ldReg x _ | .orReg x _ | .andReg x _ | .xorReg x _ | .ldRegDt x =>
    ∃ b, t = s.setReg x b
  | .addReg x _ | .subReg x _ | .shr x _ | .subnReg x _ | .shl x _ => ∃ r, t = setResultFlag x r s
  | .ldI _ | .addI _ | .ldFont _ => ∃ w, t = s.setI w
  | .rnd x _ => ∃ b, t = (s.setDraws (s.draws + 1)).setReg x b
  | .drw _ _ _ => (∃ f, t = takeFault f s) ∨ ∃ b p, t = (s.setReg vfIdx b).setPix p
  | .ldKey x => (∃ b, t = s.setReg x b) ∨ t = s.setPc (s.pc - 2)
  | .ldDt _ => ∃ b, t = s.setDt b
  | .ldSt _ => ∃ b, t = s.setSt b
  | .ldBcd x =>
    (∃ f, t = takeFault f s) ∨
    (indexAddr s 0 + 3 ≤ 4096 ∧ t = s.setMem (Memory.writeAll s.mem (indexAddr s 0) (decimalDigits (s.reg x))))
  | .storeRegs x =>
    (∃ f, t = takeFault f s) ∨
    (indexAddr s 0 + (x.toNat + 1) ≤ 4096 ∧ t = s.setMem (Memory.writeAll s.mem (indexAddr s 0) (regsUpTo x s)))
  | .loadRegs x =>
    (∃ f, t = takeFault f s) ∨ t = setRegsFrom 0 (Memory.readAll s.mem (indexAddr s 0) (rangeCount x)) s

/-- Everything an instruction that answers a next state can do. -/
theorem exec_cases (i : Instr) (s t : State) (h : exec i s = .next t) : ExecResult i s t := by
  cases i
  case ret =>
    by_cases h0 : 0 < s.sp.val
    · right
      change settle s (popStack s) = _ at h
      rw [popStack_of_pos s h0] at h
      cases h
      exact ⟨h0, rfl⟩
    · left
      change settle s (popStack s) = _ at h
      rw [popStack_of_empty s (by omega)] at h
      cases h
      exact ⟨_, rfl⟩
  case call n =>
    by_cases h0 : s.sp.val < 16
    · right
      change settle s ((pushStack s.pc s).map _) = _ at h
      rw [pushStack_of_lt _ s h0] at h
      cases h
      exact ⟨h0, rfl⟩
    · left
      change settle s ((pushStack s.pc s).map _) = _ at h
      rw [pushStack_of_full _ s (by omega)] at h
      cases h
      exact ⟨_, rfl⟩
  case skp x =>
    change settle s ((keyAt _ s).map _) = _ at h
    rcases settle_cases _ _ _ h with h | ⟨f, _, rfl⟩
    · right
      cases hk : keyAt (s.reg x) s <;> rw [hk] at h <;> cases h
      exact ⟨_, rfl⟩
    · exact .inl ⟨f, rfl⟩
  case sknp x =>
    change settle s ((keyAt _ s).map _) = _ at h
    rcases settle_cases _ _ _ h with h | ⟨f, _, rfl⟩
    · right
      cases hk : keyAt (s.reg x) s <;> rw [hk] at h <;> cases h
      exact ⟨_, rfl⟩
    · exact .inl ⟨f, rfl⟩
  case drw x y n =>
    change settle s ((readRange _ _ s).map _) = _ at h
    rcases settle_cases _ _ _ h with h | ⟨f, _, rfl⟩
    · right
      cases hk : readRange (indexAddr s 0) n.toNat s <;> rw [hk] at h <;> cases h
      exact ⟨_, _, rfl⟩
    · exact .inl ⟨f, rfl⟩
  case ldBcd x =>
    change settle s (writeRange _ _ s) = _ at h
    by_cases h0 : indexAddr s 0 + 3 ≤ 4096
    · rw [writeRange_ok _ _ _ (.inr h0)] at h
      cases h
      exact .inr ⟨h0, rfl⟩
    · rw [writeRange_error _ _ _ (by simp) (by simp; omega)] at h
      cases h
      exact .inl ⟨_, rfl⟩
  case storeRegs x =>
    change settle s (writeRange _ _ s) = _ at h
    by_cases h0 : indexAddr s 0 + (x.toNat + 1) ≤ 4096
    · rw [writeRange_ok _ _ _ (.inr (by simpa using h0))] at h
      cases h
      exact .inr ⟨h0, rfl⟩
    · rw [writeRange_error _ _ _ (by simp) (by simp; omega)] at h
      cases h
      exact .inl ⟨_, rfl⟩
  case loadRegs x =>
    change settle s ((readRange _ _ s).map _) = _ at h
    by_cases h0 : indexAddr s 0 + rangeCount x ≤ 4096
    · rw [readRange_ok _ _ _ (.inr h0)] at h
      cases h
      exact .inr rfl
    · rw [readRange_error _ _ _ (by simp [rangeCount]) (by omega)] at h
      cases h
      exact .inl ⟨_, rfl⟩
  case ldKey x =>
    change execLdKey x s = _ at h
    unfold execLdKey at h
    split at h <;> cases h
    · exact .inl ⟨_, rfl⟩
    · exact .inr rfl
  all_goals
    cases h
    first | exact ⟨_, rfl⟩ | rfl

end Sys2Proof.Machine
end

