-- ==== Sys2Proof/Laws/PerInstr.lean ====
section
/-! SUPPORT. Statements about every instruction as syntax, one lemma per constructor (LAWS.json). -/

namespace Sys2Proof.Laws.TableRow

/-- The encoding of an instruction has the fixed bits of its own row of the opcode table, and that row is in the table
(30_encoding.md R97, R108). -/
def Statement (i : Instr) : Prop := i.row ∈ opcodeRows ∧ i.row.accepts (encode i) = true

theorem accepts_of_eq (r : Row) (w : Word) (h : w &&& r.mask = r.pattern) : r.accepts w = true := by
  simp [Row.accepts, h]

theorem mask_a (f : Nibble) (k : Addr) : (f ++ k : Word) &&& 0xF000#16 = f ++ 0#12 := by
  apply BitVec.eq_of_getLsbD_eq
  intro i hi
  simp only [BitVec.getLsbD_and, BitVec.getLsbD_append]
  interval_cases i <;> simp

theorem mask_xk (f : Nibble) (x : RegIdx) (k : Byte) : (f ++ x ++ k : Word) &&& 0xF000#16 = f ++ 0#12 := by
  apply BitVec.eq_of_getLsbD_eq
  intro i hi
  simp only [BitVec.getLsbD_and, BitVec.getLsbD_append]
  interval_cases i <;> simp

theorem mask_xy (f : Nibble) (x y : RegIdx) (k : Nibble) : (f ++ x ++ y ++ k : Word) &&& 0xF00F#16 = f ++ 0#8 ++ k := by
  apply BitVec.eq_of_getLsbD_eq
  intro i hi
  simp only [BitVec.getLsbD_and, BitVec.getLsbD_append]
  interval_cases i <;> simp

theorem mask_xyn (f : Nibble) (x y : RegIdx) (k : Nibble) : (f ++ x ++ y ++ k : Word) &&& 0xF000#16 = f ++ 0#12 := by
  apply BitVec.eq_of_getLsbD_eq
  intro i hi
  simp only [BitVec.getLsbD_and, BitVec.getLsbD_append]
  interval_cases i <;> simp

theorem mask_xf (f : Nibble) (x : RegIdx) (k : Byte) : (f ++ x ++ k : Word) &&& 0xF0FF#16 = f ++ 0#4 ++ k := by
  apply BitVec.eq_of_getLsbD_eq
  intro i hi
  simp only [BitVec.getLsbD_and, BitVec.getLsbD_append]
  interval_cases i <;> simp

theorem cls : Statement (.cls) :=
  ⟨by simp [Instr.row, opcodeRows, rowsControl, rowsArith, rowsIndex, rowsMisc], by decide⟩

theorem ret : Statement (.ret) :=
  ⟨by simp [Instr.row, opcodeRows, rowsControl, rowsArith, rowsIndex, rowsMisc], by decide⟩

theorem jp (nnn : Addr) : Statement (.jp nnn) :=
  ⟨by simp [Instr.row, opcodeRows, rowsControl, rowsArith, rowsIndex, rowsMisc], accepts_of_eq _ _ (mask_a _ _)⟩

theorem call (nnn : Addr) : Statement (.call nnn) :=
  ⟨by simp [Instr.row, opcodeRows, rowsControl, rowsArith, rowsIndex, rowsMisc], accepts_of_eq _ _ (mask_a _ _)⟩

theorem seImm (x : RegIdx) (nn : Byte) : Statement (.seImm x nn) :=
  ⟨by simp [Instr.row, opcodeRows, rowsControl, rowsArith, rowsIndex, rowsMisc], accepts_of_eq _ _ (mask_xk _ _ _)⟩

theorem sneImm (x : RegIdx) (nn : Byte) : Statement (.sneImm x nn) :=
  ⟨by simp [Instr.row, opcodeRows, rowsControl, rowsArith, rowsIndex, rowsMisc], accepts_of_eq _ _ (mask_xk _ _ _)⟩

theorem seReg (x y : RegIdx) : Statement (.seReg x y) :=
  ⟨by simp [Instr.row, opcodeRows, rowsControl, rowsArith, rowsIndex, rowsMisc], accepts_of_eq _ _ (mask_xy _ _ _ _)⟩

theorem ldImm (x : RegIdx) (nn : Byte) : Statement (.ldImm x nn) :=
  ⟨by simp [Instr.row, opcodeRows, rowsControl, rowsArith, rowsIndex, rowsMisc], accepts_of_eq _ _ (mask_xk _ _ _)⟩

theorem addImm (x : RegIdx) (nn : Byte) : Statement (.addImm x nn) :=
  ⟨by simp [Instr.row, opcodeRows, rowsControl, rowsArith, rowsIndex, rowsMisc], accepts_of_eq _ _ (mask_xk _ _ _)⟩

theorem ldReg (x y : RegIdx) : Statement (.ldReg x y) :=
  ⟨by simp [Instr.row, opcodeRows, rowsControl, rowsArith, rowsIndex, rowsMisc], accepts_of_eq _ _ (mask_xy _ _ _ _)⟩

theorem orReg (x y : RegIdx) : Statement (.orReg x y) :=
  ⟨by simp [Instr.row, opcodeRows, rowsControl, rowsArith, rowsIndex, rowsMisc], accepts_of_eq _ _ (mask_xy _ _ _ _)⟩

theorem andReg (x y : RegIdx) : Statement (.andReg x y) :=
  ⟨by simp [Instr.row, opcodeRows, rowsControl, rowsArith, rowsIndex, rowsMisc], accepts_of_eq _ _ (mask_xy _ _ _ _)⟩

theorem xorReg (x y : RegIdx) : Statement (.xorReg x y) :=
  ⟨by simp [Instr.row, opcodeRows, rowsControl, rowsArith, rowsIndex, rowsMisc], accepts_of_eq _ _ (mask_xy _ _ _ _)⟩

theorem addReg (x y : RegIdx) : Statement (.addReg x y) :=
  ⟨by simp [Instr.row, opcodeRows, rowsControl, rowsArith, rowsIndex, rowsMisc], accepts_of_eq _ _ (mask_xy _ _ _ _)⟩

theorem subReg (x y : RegIdx) : Statement (.subReg x y) :=
  ⟨by simp [Instr.row, opcodeRows, rowsControl, rowsArith, rowsIndex, rowsMisc], accepts_of_eq _ _ (mask_xy _ _ _ _)⟩

theorem shr (x y : RegIdx) : Statement (.shr x y) :=
  ⟨by simp [Instr.row, opcodeRows, rowsControl, rowsArith, rowsIndex, rowsMisc], accepts_of_eq _ _ (mask_xy _ _ _ _)⟩

theorem subnReg (x y : RegIdx) : Statement (.subnReg x y) :=
  ⟨by simp [Instr.row, opcodeRows, rowsControl, rowsArith, rowsIndex, rowsMisc], accepts_of_eq _ _ (mask_xy _ _ _ _)⟩

theorem shl (x y : RegIdx) : Statement (.shl x y) :=
  ⟨by simp [Instr.row, opcodeRows, rowsControl, rowsArith, rowsIndex, rowsMisc], accepts_of_eq _ _ (mask_xy _ _ _ _)⟩

theorem sneReg (x y : RegIdx) : Statement (.sneReg x y) :=
  ⟨by simp [Instr.row, opcodeRows, rowsControl, rowsArith, rowsIndex, rowsMisc], accepts_of_eq _ _ (mask_xy _ _ _ _)⟩

theorem ldI (nnn : Addr) : Statement (.ldI nnn) :=
  ⟨by simp [Instr.row, opcodeRows, rowsControl, rowsArith, rowsIndex, rowsMisc], accepts_of_eq _ _ (mask_a _ _)⟩

theorem jpV0 (nnn : Addr) : Statement (.jpV0 nnn) :=
  ⟨by simp [Instr.row, opcodeRows, rowsControl, rowsArith, rowsIndex, rowsMisc], accepts_of_eq _ _ (mask_a _ _)⟩

theorem rnd (x : RegIdx) (nn : Byte) : Statement (.rnd x nn) :=
  ⟨by simp [Instr.row, opcodeRows, rowsControl, rowsArith, rowsIndex, rowsMisc], accepts_of_eq _ _ (mask_xk _ _ _)⟩

theorem drw (x y : RegIdx) (n : Nibble) : Statement (.drw x y n) :=
  ⟨by simp [Instr.row, opcodeRows, rowsControl, rowsArith, rowsIndex, rowsMisc], accepts_of_eq _ _ (mask_xyn _ _ _ _)⟩

theorem skp (x : RegIdx) : Statement (.skp x) :=
  ⟨by simp [Instr.row, opcodeRows, rowsControl, rowsArith, rowsIndex, rowsMisc], accepts_of_eq _ _ (mask_xf _ _ _)⟩

theorem sknp (x : RegIdx) : Statement (.sknp x) :=
  ⟨by simp [Instr.row, opcodeRows, rowsControl, rowsArith, rowsIndex, rowsMisc], accepts_of_eq _ _ (mask_xf _ _ _)⟩

theorem ldRegDt (x : RegIdx) : Statement (.ldRegDt x) :=
  ⟨by simp [Instr.row, opcodeRows, rowsControl, rowsArith, rowsIndex, rowsMisc], accepts_of_eq _ _ (mask_xf _ _ _)⟩

theorem ldKey (x : RegIdx) : Statement (.ldKey x) :=
  ⟨by simp [Instr.row, opcodeRows, rowsControl, rowsArith, rowsIndex, rowsMisc], accepts_of_eq _ _ (mask_xf _ _ _)⟩

theorem ldDt (x : RegIdx) : Statement (.ldDt x) :=
  ⟨by simp [Instr.row, opcodeRows, rowsControl, rowsArith, rowsIndex, rowsMisc], accepts_of_eq _ _ (mask_xf _ _ _)⟩

theorem ldSt (x : RegIdx) : Statement (.ldSt x) :=
  ⟨by simp [Instr.row, opcodeRows, rowsControl, rowsArith, rowsIndex, rowsMisc], accepts_of_eq _ _ (mask_xf _ _ _)⟩

theorem addI (x : RegIdx) : Statement (.addI x) :=
  ⟨by simp [Instr.row, opcodeRows, rowsControl, rowsArith, rowsIndex, rowsMisc], accepts_of_eq _ _ (mask_xf _ _ _)⟩

theorem ldFont (x : RegIdx) : Statement (.ldFont x) :=
  ⟨by simp [Instr.row, opcodeRows, rowsControl, rowsArith, rowsIndex, rowsMisc], accepts_of_eq _ _ (mask_xf _ _ _)⟩

theorem ldBcd (x : RegIdx) : Statement (.ldBcd x) :=
  ⟨by simp [Instr.row, opcodeRows, rowsControl, rowsArith, rowsIndex, rowsMisc], accepts_of_eq _ _ (mask_xf _ _ _)⟩

theorem storeRegs (x : RegIdx) : Statement (.storeRegs x) :=
  ⟨by simp [Instr.row, opcodeRows, rowsControl, rowsArith, rowsIndex, rowsMisc], accepts_of_eq _ _ (mask_xf _ _ _)⟩

theorem loadRegs (x : RegIdx) : Statement (.loadRegs x) :=
  ⟨by simp [Instr.row, opcodeRows, rowsControl, rowsArith, rowsIndex, rowsMisc], accepts_of_eq _ _ (mask_xf _ _ _)⟩

end Sys2Proof.Laws.TableRow
end

