-- ==== Sys2Proof/Laws/Step.lean ====
section
/-! SUPPORT. What a step can do, said once. -/

namespace Sys2Proof.Machine

/-- Every instruction of the core answers a next state: none is refused, and a fault is taken as a next state. -/
theorem exec_is_next (i : Instr) (s : State) : ∃ t, exec i s = .next t := by
  cases i
  case ret => exact settle_is_next _ _
  case call => exact settle_is_next _ _
  case drw => exact settle_is_next _ _
  case skp => exact settle_is_next _ _
  case sknp => exact settle_is_next _ _
  case ldBcd => exact settle_is_next _ _
  case storeRegs => exact settle_is_next _ _
  case loadRegs => exact settle_is_next _ _
  case ldKey x =>
    show ∃ t, execLdKey x s = .next t
    unfold execLdKey
    split <;> exact ⟨_, rfl⟩
  all_goals exact ⟨_, rfl⟩

/-- The decoder's only rejection of a word is `InvalidOpcode` with that word. -/
theorem decodeWord_error (op : Word) (e : DecodeError) (h : decodeWord op = .error e) : e = .invalidOpcode op := by
  unfold decodeWord at h
  split at h
  · cases h
  · exact (Except.error.inj h).symm

/-- A fetched word that decodes runs as its instruction. -/
theorem runWord_ok (op : Word) (i : Instr) (s : State) (h : decodeWord op = .ok i) : runWord op s = exec i s := by
  simp [runWord, h]

/-- A fetched word that does not decode takes `InvalidOpcode`. -/
theorem runWord_error (op : Word) (e : DecodeError) (s : State) (h : decodeWord op = .error e) :
    runWord op s = .next (takeFault (.invalidOpcode op) s) := by
  simp [runWord, h]

/-- Decode and execute always answer a next state. -/
theorem runWord_is_next (op : Word) (s : State) : ∃ t, runWord op s = .next t := by
  cases hd : decodeWord op with
  | ok i => rw [runWord_ok op i s hd]; exact exec_is_next i s
  | error e => exact ⟨_, runWord_error op e s hd⟩

theorem step_of_faulted (s : State) (f : Fault) (h : s.fault = some f) : step s = .fault f := by
  simp [step, h]

theorem step_of_fetch_error (s : State) (f : Fault) (h : s.fault = none) (hf : fetch s = .error f) :
    step s = .next (takeFault f s) := by
  simp [step, h, hf]

theorem step_of_fetch_ok (s : State) (op : Word) (h : s.fault = none) (hf : fetch s = .ok op) :
    step s = runWord op (advancePc s) := by
  simp [step, h, hf]

/-- Everything a step that answers a next state can be: a fetch fault, an illegal word, or an instruction run in the state
with the pc advanced. -/
theorem step_cases (s t : State) (h : step s = .next t) :
    s.fault = none ∧
    ((4095 ≤ s.pc.toNat ∧ t = takeFault (.outOfRange .memory (max s.pc.toNat 4096)) s) ∨
     (s.pc.toNat ≤ 4094 ∧ ∃ op, fetch s = .ok op ∧
       ((decodeWord op = .error (.invalidOpcode op) ∧ t = takeFault (.invalidOpcode op) (advancePc s)) ∨
        ∃ i, decodeWord op = .ok i ∧ exec i (advancePc s) = .next t))) := by
  cases hf : s.fault with
  | some f => rw [step_of_faulted s f hf] at h; cases h
  | none =>
    refine ⟨rfl, ?_⟩
    rcases fetch_cases s with ⟨hp, hw⟩ | ⟨hp, hw⟩
    · refine .inr ⟨hp, _, hw, ?_⟩
      rw [step_of_fetch_ok s _ hf hw] at h
      cases hd : decodeWord (joinBytes (Memory.read s.mem s.pc.toNat) (Memory.read s.mem (s.pc.toNat + 1))) with
      | ok i => exact .inr ⟨i, rfl, by rw [← runWord_ok _ _ _ hd]; exact h⟩
      | error e =>
        have he := decodeWord_error _ _ hd
        subst he
        simp only [runWord_error _ _ _ hd, Host.Outcome.next.injEq] at h
        exact .inl ⟨rfl, h.symm⟩
    · simp only [step_of_fetch_error s _ hf hw, Host.Outcome.next.injEq] at h
      exact .inl ⟨hp, h.symm⟩

/-- The advance of a step leaves all but the pc as it was. -/
@[simp] theorem advancePc_pc (s : State) : (advancePc s).pc = s.pc + 2 := rfl

@[simp] theorem advancePc_fault (s : State) : (advancePc s).fault = s.fault := rfl

@[simp] theorem advancePc_mem (s : State) : (advancePc s).mem = s.mem := rfl

@[simp] theorem advancePc_reg (s : State) (r : RegIdx) : (advancePc s).reg r = s.reg r := rfl

/-- The advance after a fetch never wraps (R232). -/
theorem advancePc_toNat (s : State) (h : s.pc.toNat ≤ 4094) : (advancePc s).pc.toNat = s.pc.toNat + 2 := by
  rw [advancePc_pc, BitVec.toNat_add]
  simp
  omega

end Sys2Proof.Machine
end

