-- ==== Sys2Proof/Laws/Scheduler.lean ====
section
/-! SUPPORT. The laws of the scheduler: what the two drain loops do as long as a period is due, and that an operation on a
faulted core changes nothing. -/

namespace Sys2Proof.Machine

theorem decTimer_toNat (b : Byte) : (decTimer b).toNat = b.toNat - 1 := by
  unfold decTimer
  split
  · rename_i h
    simp [h]
  · rename_i h
    have h0 : b.toNat ≠ 0 := fun e => h (BitVec.eq_of_toNat_eq (by simpa using e))
    rw [BitVec.toNat_sub_of_le (by rw [BitVec.le_def]; simp; omega)]
    rfl

/-- One timer iteration: both timers down by one unless 0, and one period less. -/
theorem timerIteration_frame (s : State) :
    { timerIteration s with dt := s.dt, st := s.st, tacc := s.tacc } = s := rfl

theorem timerLoop_of_lt (k : Nat) (s : State) (h : s.tacc < timerPeriod) : timerLoop k s = s := by
  cases k with
  | zero => rfl
  | succ k => exact if_neg (not_le.2 h)

/-- `k` timer iterations that are all due. -/
theorem timerLoop_due (k : Nat) (s : State) (h : (k : Rat) / 60 ≤ s.tacc) :
    (timerLoop k s).dt.toNat = s.dt.toNat - k ∧ (timerLoop k s).st.toNat = s.st.toNat - k ∧
    (timerLoop k s).tacc = s.tacc - k / 60 ∧
    { timerLoop k s with dt := s.dt, st := s.st, tacc := s.tacc } = s := by
  induction k generalizing s with
  | zero => simp [timerLoop]
  | succ k ih =>
    push_cast at h
    have h1 : s.tacc ≥ timerPeriod := by
      have : (0 : Rat) ≤ k := Nat.cast_nonneg k
      unfold timerPeriod
      linarith
    have h2 := ih (timerIteration s) (by simp only [timerIteration, setTacc_tacc, timerPeriod]; linarith)
    rw [timerLoop, if_pos h1]
    refine ⟨?_, ?_, ?_, ?_⟩
    · rw [h2.1]
      simp only [timerIteration, setTacc_dt, setSt_dt, setDt_dt, decTimer_toNat]
      omega
    · rw [h2.2.1]
      simp only [timerIteration, setTacc_st, setSt_st, decTimer_toNat]
      omega
    · rw [h2.2.2.1]
      simp only [timerIteration, setTacc_tacc, timerPeriod]
      push_cast
      ring
    · exact congrArg (fun t : State => { t with dt := s.dt, st := s.st, tacc := s.tacc }) h2.2.2.2

/-- One instruction of the drain loop that is due and raises no fault. -/
theorem stepLoop_next (k : Nat) (s t : State) (h : s.iacc ≥ stepPeriod s) (hs : step s = .next t) (ht : t.fault = none) :
    stepLoop (k + 1) s = stepLoop k (t.setIacc (t.iacc - stepPeriod t)) := by
  rw [stepLoop, if_pos h, hs]
  simp only [ht]

/-- An instruction of the drain loop that raises a fault ends it, without a period subtracted. -/
theorem stepLoop_fault (k : Nat) (s t : State) (f : Fault) (h : s.iacc ≥ stepPeriod s) (hs : step s = .next t)
    (ht : t.fault = some f) : stepLoop (k + 1) s = (.faulted f, t) := by
  rw [stepLoop, if_pos h, hs]
  simp only [ht]

theorem stepLoop_of_lt (k : Nat) (s : State) (h : s.iacc < stepPeriod s) : stepLoop k s = (.drained, s) := by
  cases k with
  | zero => rfl
  | succ k => exact if_neg (not_le.2 h)

/-- How the instruction drain loop of a running core can end: drained and still running, or in the state of a fault. -/
theorem stepLoop_cases (k : Nat) (s : State) (hs : s.fault = none) :
    ((stepLoop k s).1 = .drained ∧ (stepLoop k s).2.fault = none) ∨
    ∃ f, (stepLoop k s).1 = .faulted f ∧ (stepLoop k s).2.fault = some f := by
  induction k generalizing s with
  | zero => exact .inl ⟨rfl, hs⟩
  | succ k ih =>
    by_cases h : s.iacc ≥ stepPeriod s
    · have hn : ∃ t, step s = .next t := by
        rcases fetch_cases s with ⟨_, hw⟩ | ⟨_, hw⟩
        · rw [step_of_fetch_ok s _ hs hw]
          exact runWord_is_next _ _
        · exact ⟨_, step_of_fetch_error s _ hs hw⟩
      obtain ⟨t, hst⟩ := hn
      cases ht : t.fault with
      | none =>
        rw [stepLoop_next k s t h hst ht]
        exact ih _ ht
      | some f =>
        rw [stepLoop_fault k s t f h hst ht]
        exact .inr ⟨f, rfl, ht⟩
    · rw [stepLoop, if_neg h]
      exact .inl ⟨rfl, hs⟩

theorem whileRunning_of_running (s : State) (r : HostReply × State) (h : s.fault = none) : whileRunning s r = r := by
  simp [whileRunning, h]

theorem whileRunning_of_faulted (s : State) (r : HostReply × State) (f : Fault) (h : s.fault = some f) :
    whileRunning s r = (.fault f, s) := by
  simp [whileRunning, h]

end Sys2Proof.Machine
end

