-- ==== Sys2Proof/Tests/Slice0.lean ====
section
/-! SUPPORT. The model's own tests: ill-formed words, one word per instruction written out bit by bit from its encoding, one
step per rule with the expected result taken from the spec's examples and vectors (95_test_vectors.md), and for every
obligation with hypotheses a state and operands that meet them. -/

namespace Sys2Proof.Tests

open Sys2Proof.Machine

-- Many small theorems checked at once would each hold a thread; they are checked one after another.
set_option Elab.async false

/-! ## Well-formedness: an ill-formed word for each family that has one (30_encoding.md R100) -/

theorem test_illformed_family0 : wordWellFormed 0x0000 = false ∧ wordWellFormed 0x00E1 = false ∧
    wordWellFormed 0x0FFF = false := by decide

theorem test_illformed_family5 : wordWellFormed 0x5121 = false ∧ wordWellFormed 0x512F = false := by decide

theorem test_illformed_family8 : wordWellFormed 0x8128 = false ∧ wordWellFormed 0x812D = false ∧
    wordWellFormed 0x812F = false := by decide

theorem test_illformed_family9 : wordWellFormed 0x9AB1 = false := by decide

theorem test_illformed_familyE : wordWellFormed 0xE09F = false ∧ wordWellFormed 0xE0A0 = false := by decide

theorem test_illformed_familyF : wordWellFormed 0xF000 = false ∧ wordWellFormed 0xF175 = false ∧
    wordWellFormed 0xF1FF = false := by decide

theorem test_illformed_bytes : bytesWellFormed [0x51, 0x21] = false ∧ bytesWellFormed [0x12] = false ∧
    bytesWellFormed [] = false ∧ bytesWellFormed [0x12, 0x00] = true := by decide

/-! ## Decoding: one word per constructor (30_encoding.md R91 to R97) -/

theorem test_decode_cls : decodeWord 0b0000000011100000#16 = .ok .cls := by decide +kernel

theorem test_decode_ret : decodeWord 0b0000000011101110#16 = .ok .ret := by decide +kernel

theorem test_decode_jp : decodeWord 0b0001101010111100#16 = .ok (.jp 0xABC) := by decide +kernel

theorem test_decode_call : decodeWord 0b0010111100000101#16 = .ok (.call 0xF05) := by decide +kernel

theorem test_decode_seImm : decodeWord 0b0011001100101010#16 = .ok (.seImm 0x3 0x2A) := by decide +kernel

theorem test_decode_sneImm : decodeWord 0b0100111010000001#16 = .ok (.sneImm 0xE 0x81) := by decide +kernel

theorem test_decode_seReg : decodeWord 0b0101000100100000#16 = .ok (.seReg 0x1 0x2) := by decide +kernel

theorem test_decode_ldImm : decodeWord 0b0110101000000010#16 = .ok (.ldImm 0xA 0x02) := by decide +kernel

theorem test_decode_addImm : decodeWord 0b0111000100000010#16 = .ok (.addImm 0x1 0x02) := by decide +kernel

theorem test_decode_ldReg : decodeWord 0b1000000100100000#16 = .ok (.ldReg 0x1 0x2) := by decide +kernel

theorem test_decode_orReg : decodeWord 0b1000101010110001#16 = .ok (.orReg 0xA 0xB) := by decide +kernel

theorem test_decode_andReg : decodeWord 0b1000000100100010#16 = .ok (.andReg 0x1 0x2) := by decide +kernel

theorem test_decode_xorReg : decodeWord 0b1000000100100011#16 = .ok (.xorReg 0x1 0x2) := by decide +kernel

theorem test_decode_addReg : decodeWord 0b1000111100010100#16 = .ok (.addReg 0xF 0x1) := by decide +kernel

theorem test_decode_subReg : decodeWord 0b1000000111110101#16 = .ok (.subReg 0x1 0xF) := by decide +kernel

theorem test_decode_shr : decodeWord 0b1000000100100110#16 = .ok (.shr 0x1 0x2) := by decide +kernel

theorem test_decode_subnReg : decodeWord 0b1000000100100111#16 = .ok (.subnReg 0x1 0x2) := by decide +kernel

theorem test_decode_shl : decodeWord 0b1000000100101110#16 = .ok (.shl 0x1 0x2) := by decide +kernel

theorem test_decode_sneReg : decodeWord 0b1001101010110000#16 = .ok (.sneReg 0xA 0xB) := by decide +kernel

theorem test_decode_ldI : decodeWord 0b1010001011110000#16 = .ok (.ldI 0x2F0) := by decide +kernel

theorem test_decode_jpV0 : decodeWord 0b1011111111111111#16 = .ok (.jpV0 0xFFF) := by decide +kernel

theorem test_decode_rnd : decodeWord 0b1100111100001010#16 = .ok (.rnd 0xF 0x0A) := by decide +kernel

theorem test_decode_drw : decodeWord 0b1101000100101110#16 = .ok (.drw 0x1 0x2 0xE) := by decide +kernel

theorem test_decode_skp : decodeWord 0b1110001010011110#16 = .ok (.skp 0x2) := by decide +kernel

theorem test_decode_sknp : decodeWord 0b1110000110100001#16 = .ok (.sknp 0x1) := by decide +kernel

theorem test_decode_ldRegDt : decodeWord 0b1111010000000111#16 = .ok (.ldRegDt 0x4) := by decide +kernel

theorem test_decode_ldKey : decodeWord 0b1111001100001010#16 = .ok (.ldKey 0x3) := by decide +kernel

theorem test_decode_ldDt : decodeWord 0b1111010000010101#16 = .ok (.ldDt 0x4) := by decide +kernel

theorem test_decode_ldSt : decodeWord 0b1111010000011000#16 = .ok (.ldSt 0x4) := by decide +kernel

theorem test_decode_addI : decodeWord 0b1111001000011110#16 = .ok (.addI 0x2) := by decide +kernel

theorem test_decode_ldFont : decodeWord 0b1111010000101001#16 = .ok (.ldFont 0x4) := by decide +kernel

theorem test_decode_ldBcd : decodeWord 0b1111010100110011#16 = .ok (.ldBcd 0x5) := by decide +kernel

theorem test_decode_storeRegs : decodeWord 0b1111001001010101#16 = .ok (.storeRegs 0x2) := by decide +kernel

theorem test_decode_loadRegs : decodeWord 0b1111001101100101#16 = .ok (.loadRegs 0x3) := by decide +kernel

theorem test_decode_truncated : decode [0x12] = .error .truncated ∧ decode [] = .error .truncated := by decide

theorem test_decode_big_endian : decode [0x6A, 0x02, 0x77] = .ok (.ldImm 0xA 0x02, [0x77]) := by decide +kernel

theorem test_decodeTableWord : decodeTableWord 16 0x6A02 = some (.ldImm 0xA 0x02) ∧ decodeTableWord 16 0x5121 = none := by
  decide +kernel

/-! ## One step of each instruction -/

/-- The state after one step from `s` with the word placed at its pc, where the step answers one. -/
def ran (w : Nat) (s : State) : Option State :=
  match Machine.step (s.withFetchWord 16 w) with
  | .next t => some t
  | _ => none

/-- What one step leaves, as seen by `look`, is `r`. -/
def leaves {α : Type} [DecidableEq α] (w : Nat) (s : State) (look : State → α) (r : α) : Bool :=
  match ran w s with
  | some t => decide (look t = r)
  | none => false

/-- The reset state with general registers set. -/
def regs (l : List (RegIdx × Byte)) : State := l.foldl (fun s p => s.setReg p.1 p.2) State.reset

/-- A state with bytes of memory set. -/
def bytesAt (a : Nat) (bs : List Byte) (s : State) : State := s.setMem (Memory.writeAll s.mem a bs)

/-- The keypad with the listed keys down. -/
def keysDown (l : List (Fin 16)) (s : State) : State := s.setKey (l.foldl (fun k i => k.set i.val true) s.key)

/-- A word of memory at 0x200 the spec's vectors start from. -/
def pixelsOn (l : List (Nat × Nat)) (p : Pixels) : List Bool := l.map (fun c => p.isOn c.1 c.2)

/-- R315, T-SCH-13: nothing loaded, the word 0x0000 at 0x200. -/
theorem test_step_reset : (match Machine.step State.reset with | .next t => decide (t.fault = some (.invalidOpcode 0) ∧ t.pc = 0x202) | _ => false) = true := by decide +kernel

/-- T-DSP-14. -/
theorem test_cls : leaves 0x00E0 ((regs [(0xF, 1)]).setPix (Pixels.blank.toggle 3 4)) (fun t => (t.pix.isOn 3 4, t.reg 0xF, t.pc)) (false, 1, 0x202) = true := by decide +kernel

/-- T-FLW-1. -/
theorem test_ret : leaves 0x00EE ((State.reset.setStack (State.reset.stk.set 0 0x0204) 1).setPc 0x300) (fun t => (t.pc, t.sp.val)) (0x0204, 0) = true := by decide +kernel

/-- T-FLW-2. -/
theorem test_ret_empty : leaves 0x00EE State.reset (fun t => (t.pc, t.sp.val, t.fault)) (0x0202, 0, some .stackUnderflow) = true := by decide +kernel

/-- T-FLW-3. -/
theorem test_jp : leaves 0x1234 State.reset (fun t => t.pc) 0x234 = true := by decide +kernel

/-- T-FLW-7: the sixteenth nested call succeeds. -/
theorem test_call : leaves 0x2300 (State.reset.setStack State.reset.stk 15) (fun t => (t.stk[15], t.sp.val, t.pc, t.fault)) (0x0202, 16, 0x0300, none) = true := by decide +kernel

/-- T-FLW-8. -/
theorem test_call_full : leaves 0x2300 (State.reset.setStack (Vector.replicate 16 0x0111) 16) (fun t => (t.pc, t.sp.val, t.stk[15], t.fault)) (0x0202, 16, 0x0111, some .stackOverflow) = true := by decide +kernel

/-- T-FLW-13, T-FLW-14. -/
theorem test_seImm : leaves 0x332A (regs [(3, 0x2A)]) (fun t => t.pc) 0x204 = true ∧ leaves 0x332A (regs [(3, 0x2B)]) (fun t => t.pc) 0x202 = true := by decide +kernel

/-- T-FLW-16, T-FLW-17. -/
theorem test_sneImm : leaves 0x432A (regs [(3, 0x2A)]) (fun t => t.pc) 0x202 = true ∧ leaves 0x432A (regs [(3, 0x00)]) (fun t => t.pc) 0x204 = true := by decide +kernel

/-- T-FLW-18, T-FLW-19. -/
theorem test_seReg : leaves 0x5120 (regs [(1, 7), (2, 7)]) (fun t => t.pc) 0x204 = true ∧ leaves 0x5120 (regs [(1, 7), (2, 8)]) (fun t => t.pc) 0x202 = true := by decide +kernel

/-- T-FLW-21, T-FLW-22. -/
theorem test_sneReg : leaves 0x9120 (regs [(1, 7), (2, 8)]) (fun t => t.pc) 0x204 = true ∧ leaves 0x9120 (regs [(1, 7), (2, 7)]) (fun t => t.pc) 0x202 = true := by decide +kernel

/-- T-FLW-12: no wrap. -/
theorem test_jpV0 : leaves 0xBFFF (regs [(0, 0xFF)]) (fun t => t.pc) 0x10FE = true := by decide +kernel

/-- T-FLW-12: the step after. -/
theorem test_fetch_past_memory : (match Machine.step (State.reset.setPc 0x10FE) with | .next t => decide (t.fault = some (.outOfRange .memory 4350) ∧ t.pc = 0x10FE) | _ => false) = true := by decide +kernel

/-- T-FLW-27. -/
theorem test_fetch_half_past_memory : (match Machine.step ((bytesAt 0xFFF [0x12] State.reset).setPc 0xFFF) with | .next t => decide (t.fault = some (.outOfRange .memory 4096) ∧ t.pc = 0xFFF) | _ => false) = true := by decide +kernel

/-- Scenario A of the document, S8, T-ALU-1. -/
theorem test_ldImm : leaves 0x6A02 State.reset (fun t => (t.reg 0xA, t.pc)) (2, 0x202) = true := by decide +kernel

/-- T-ALU-2. -/
theorem test_addImm : leaves 0x7102 (regs [(1, 0xFF), (0xF, 1)]) (fun t => (t.reg 1, t.reg 0xF)) (0x01, 1) = true := by decide +kernel

/-- T-ALU-4. -/
theorem test_ldReg : leaves 0x8120 (regs [(2, 0x37)]) (fun t => (t.reg 1, t.reg 2)) (0x37, 0x37) = true := by decide +kernel

/-- T-ALU-5. -/
theorem test_orReg : leaves 0x8121 (regs [(1, 0x0F), (2, 0xF0), (0xF, 1)]) (fun t => (t.reg 1, t.reg 0xF)) (0xFF, 1) = true := by decide +kernel

/-- T-ALU-6. -/
theorem test_andReg : leaves 0x8122 (regs [(1, 0x3C), (2, 0x0F), (0xF, 1)]) (fun t => (t.reg 1, t.reg 0xF)) (0x0C, 1) = true := by decide +kernel

/-- T-ALU-7. -/
theorem test_xorReg : leaves 0x8123 (regs [(1, 0xFF), (2, 0x0F), (0xF, 1)]) (fun t => (t.reg 1, t.reg 0xF)) (0xF0, 1) = true := by decide +kernel

/-- T-ALU-10. -/
theorem test_addReg : leaves 0x8124 (regs [(1, 0xFF), (2, 1)]) (fun t => (t.reg 1, t.reg 0xF)) (0, 1) = true := by decide +kernel

/-- T-ALU-13, T-ALU-14. -/
theorem test_addReg_flag_is_operand : leaves 0x8F14 (regs [(0xF, 0xF0), (1, 0x20)]) (fun t => (t.reg 0xF, t.reg 1)) (1, 0x20) = true ∧
    leaves 0x81F4 (regs [(1, 5), (0xF, 1)]) (fun t => (t.reg 1, t.reg 0xF)) (6, 0) = true := by decide +kernel

/-- T-ALU-16, T-ALU-17. -/
theorem test_subReg : leaves 0x8125 (regs [(1, 5), (2, 7)]) (fun t => (t.reg 1, t.reg 0xF)) (0xFE, 0) = true ∧
    leaves 0x8125 (regs [(1, 7), (2, 7)]) (fun t => (t.reg 1, t.reg 0xF)) (0, 1) = true := by decide +kernel

/-- T-ALU-23, T-ALU-25. -/
theorem test_shr : leaves 0x8126 (regs [(1, 4), (2, 0xFF), (0xF, 1)]) (fun t => (t.reg 1, t.reg 2, t.reg 0xF)) (2, 0xFF, 0) = true ∧
    leaves 0x8F06 (regs [(0xF, 3)]) (fun t => t.reg 0xF) 1 = true := by decide +kernel

/-- T-ALU-27, T-ALU-28. -/
theorem test_subnReg : leaves 0x8127 (regs [(1, 5), (2, 7)]) (fun t => (t.reg 1, t.reg 2, t.reg 0xF)) (2, 7, 1) = true ∧
    leaves 0x8127 (regs [(1, 7), (2, 5)]) (fun t => (t.reg 1, t.reg 0xF)) (0xFE, 0) = true := by decide +kernel

/-- T-ALU-31, T-ALU-32. -/
theorem test_shl : leaves 0x810E (regs [(1, 0x81)]) (fun t => (t.reg 1, t.reg 0xF)) (2, 1) = true ∧
    leaves 0x812E (regs [(1, 0x40), (2, 0xFF), (0xF, 1)]) (fun t => (t.reg 1, t.reg 2, t.reg 0xF)) (0x80, 0xFF, 0) = true := by decide +kernel

/-- T-ALU-37: with a mask of 0 the result is 0 whatever byte is drawn; one byte is drawn. -/
theorem test_rnd : (ran 0xC300 (regs [(3, 0x55)])).map (fun t => (t.reg 3, t.draws)) = some (0, 1) := by
  have h : ran 0xC300 (regs [(3, 0x55)]) =
      some (((regs [(3, 0x55)]).withFetchWord 16 0xC300 |> advancePc).setDraws 1 |>.setReg 3 (Config.rnd 0 &&& 0)) := by rfl
  rw [h]
  simp only [Option.map_some, reg_setReg_self, setReg_draws, setDraws_draws]
  simp

/-- T-MEM-1. -/
theorem test_ldI : leaves 0xA2F0 (State.reset.setI 0xFFFF) (fun t => t.i) 0x02F0 = true := by decide +kernel

/-- T-MEM-2, T-MEM-4. -/
theorem test_addI : leaves 0xF21E ((regs [(2, 5), (0xF, 1)]).setI 0x0FFE) (fun t => (t.i, t.reg 0xF)) (0x1003, 1) = true ∧
    leaves 0xF21E ((regs [(2, 2)]).setI 0xFFFF) (fun t => t.i) 1 = true := by decide +kernel

/-- T-MEM-6, T-MEM-7. -/
theorem test_ldFont : leaves 0xF429 (regs [(4, 0x0F)]) (fun t => t.i) 0x4B = true ∧ leaves 0xF429 (regs [(4, 0xFF)]) (fun t => t.i) 0x4FB = true := by decide +kernel

/-- T-MEM-10. -/
theorem test_ldBcd : leaves 0xF533 ((regs [(5, 199)]).setI 4093) (fun t => (Memory.readAll t.mem 4093 3, t.fault)) ([1, 9, 9], none) = true := by decide +kernel

/-- T-MEM-11. -/
theorem test_ldBcd_out_of_range : leaves 0xF533 (((bytesAt 4094 [0xEE, 0xEE] (regs [(5, 199)]))).setI 4094) (fun t => (Memory.readAll t.mem 4094 2, t.fault)) ([0xEE, 0xEE], some (.outOfRange .memory 4096)) = true := by decide +kernel

/-- T-MEM-19: the font region is writable and only the range changes. -/
theorem test_storeRegs : leaves 0xF255 (regs [(0, 0x11), (1, 0x22), (2, 0x33)]) (fun t => (Memory.readAll t.mem 0 5, t.i)) ([0x11, 0x22, 0x33, 0x90, 0xF0], 0) = true := by decide +kernel

/-- T-MEM-17. -/
theorem test_storeRegs_out_of_range : leaves 0xFF55 ((regs [(0, 0x11)]).setI 4081) (fun t => (Memory.read t.mem 4081, t.fault)) (0, some (.outOfRange .memory 4096)) = true := by decide +kernel

/-- T-MEM-24. -/
theorem test_loadRegs : leaves 0xF365 (regs [(3, 0xEE), (4, 0xEE)]) (fun t => ([t.reg 0, t.reg 1, t.reg 2, t.reg 3, t.reg 4], t.i)) ([0xF0, 0x90, 0x90, 0x90, 0xEE], 0) = true := by decide +kernel

/-- T-MEM-23. -/
theorem test_loadRegs_out_of_range : leaves 0xFF65 ((regs [(0, 0xEE)]).setI 4081) (fun t => (t.reg 0, t.fault)) (0xEE, some (.outOfRange .memory 4096)) = true := by decide +kernel

/-- T-DSP-3. -/
theorem test_drw_wraps : leaves 0xD012 ((bytesAt 0x300 [0xFF, 0x81] (regs [(0, 62), (1, 31)])).setI 0x300) (fun t => (pixelsOn [(62, 31), (63, 31), (0, 31), (5, 31), (6, 31), (62, 0), (5, 0), (63, 0)] t.pix, t.reg 0xF)) ([true, true, true, true, false, true, true, false], 0) = true := by decide +kernel

/-- T-DSP-9. -/
theorem test_drw_samples_the_position : leaves 0xDF11 ((bytesAt 0x300 [0x80] (regs [(1, 2), (0xF, 5)])).setI 0x300) (fun t => (pixelsOn [(5, 2), (0, 2)] t.pix, t.reg 0xF)) ([true, false], 0) = true := by decide +kernel

/-- T-DSP-13: the second draw of the vector, on the first draw's row. -/
theorem test_drw_collision : leaves 0xD011 (((bytesAt 0x301 [0x18] State.reset).setI 0x301).setPix (drawRow 0xF0 0 0 (Pixels.blank, false)).1) (fun t => (pixelsOn [(0, 0), (1, 0), (2, 0), (3, 0), (4, 0)] t.pix, t.reg 0xF)) ([true, true, true, false, true], 1) = true := by decide +kernel

/-- T-KEY-1, T-KEY-4. -/
theorem test_skp : leaves 0xE29E (keysDown [5] (regs [(2, 5)])) (fun t => t.pc) 0x204 = true ∧
    leaves 0xE29E (keysDown [0] (regs [(2, 0x10)])) (fun t => (t.pc, t.fault)) (0x202, some (.outOfRange .keypad 16)) = true := by decide +kernel

/-- T-KEY-6, T-KEY-7. -/
theorem test_sknp : leaves 0xE2A1 (regs [(2, 5)]) (fun t => t.pc) 0x204 = true ∧ leaves 0xE2A1 (keysDown [5] (regs [(2, 5)])) (fun t => t.pc) 0x202 = true := by decide +kernel

/-- T-KEY-14. -/
theorem test_ldRegDt : leaves 0xF407 (State.reset.setDt 0x3C) (fun t => (t.reg 4, t.dt)) (0x3C, 0x3C) = true := by decide +kernel

/-- T-KEY-9, T-KEY-10. -/
theorem test_ldKey : leaves 0xF30A (regs [(3, 0xEE)]) (fun t => (t.pc, t.reg 3)) (0x200, 0xEE) = true ∧
    leaves 0xF30A (keysDown [7, 9] (regs [(3, 0xEE)])) (fun t => (t.pc, t.reg 3)) (0x202, 7) = true := by decide +kernel

/-- T-KEY-15. -/
theorem test_ldDt : leaves 0xF415 (regs [(4, 0x0A)]) (fun t => (t.dt, t.st)) (0x0A, 0) = true := by decide +kernel

/-- T-KEY-16. -/
theorem test_ldSt : leaves 0xF418 (regs [(4, 3)]) (fun t => (t.st, t.dt)) (3, 0) = true := by decide +kernel

/-! ## The scheduler and the host's operations -/

/-- T-SCH-1, with `90_conflicts.md` C1. -/
theorem test_timer_drain : (timerDrain (1 / 30) (State.reset.setDt 10)).dt = 8 ∧ (timerDrain (1 / 30) (State.reset.setDt 10)).tacc = 0 := by decide +kernel

/-- The reset state with a program loaded (R246). -/
def loaded (bytes : List Byte) : State := (hostStep fontDefault (.loadProgram bytes) State.reset).2

/-- T-SCH-4: 2/1000 s at 500 a second is exactly one step of the self-jump. -/
theorem test_tick_selfjump : (hostStep fontDefault (.tick (1 / 500)) (loaded [0x12, 0x00])).1 = .success ∧ (hostStep fontDefault (.tick (1 / 500)) (loaded [0x12, 0x00])).2.pc = 0x200 ∧
    (hostStep fontDefault (.tick (1 / 500)) (loaded [0x12, 0x00])).2.iacc = 0 := by decide +kernel

/-- T-SCH-11: the faulting step's period is not subtracted. -/
theorem test_tick_fault : (hostStep fontDefault (.tick (1 / 60)) (loaded [0x60, 0x01, 0x00, 0x00])).1 = .fault (.invalidOpcode 0) ∧
    (hostStep fontDefault (.tick (1 / 60)) (loaded [0x60, 0x01, 0x00, 0x00])).2.iacc = 11 / 750 ∧
    (hostStep fontDefault (.tick (1 / 60)) (loaded [0x60, 0x01, 0x00, 0x00])).2.pc = 0x204 := by decide +kernel

/-- T-SCH-7. -/
theorem test_rate_requests : (hostStep fontDefault (.setInstructionRate 0) State.reset).1 = .rateRefused ∧ (hostStep fontDefault (.setInstructionRate 65536) State.reset).1 = .rateRefused ∧
    (hostStep fontDefault (.setInstructionRate (1 / 2)) State.reset).1 = .rateRefused ∧ (hostStep fontDefault (.setInstructionRate 65535) State.reset).2.rate = 65535 := by decide +kernel

/-- T-HST-2. -/
theorem test_program_too_large : (hostStep fontDefault (.loadProgram (List.replicate 3585 0)) State.reset).1 = .programTooLarge := by decide +kernel

/-- R33, R310: a reset with a FONT of 80 bytes 0xA5 leaves them below 0x050 and 0 above; the default's glyph of F is that of
R33's table. -/
theorem test_reset_font : Memory.readAll (hostStep (Vector.replicate 80 0xA5) .reset State.reset).2.mem 0x04E 4 = [0xA5, 0xA5, 0, 0] ∧
    Memory.readAll (hostStep fontDefault .reset State.reset).2.mem 0x04B 6 = [0xF0, 0x80, 0xF0, 0x80, 0x80, 0] := by decide +kernel

/-- R256: the program of scenario C is at its self-jump. -/
theorem test_self_jump_is_seen : (loaded [0x12, 0x00]).atSelfJump = true ∧ State.reset.atSelfJump = false := by decide +kernel

/-- T-DSP-15: the pixel (0,1) alone is on. -/
theorem test_presentation : (presentation (Pixels.blank.toggle 0 1))[192]? = some 0xFF ∧ (presentation (Pixels.blank.toggle 0 1))[193]? = some 0xBB ∧
    (presentation (Pixels.blank.toggle 0 1))[195]? = some 0x00 := by decide +kernel

/-! ## Witnesses: for each obligation with hypotheses, a state and operands that meet them (one per clause, at its bounds) -/

theorem witness_EncodeOfDecodeIsTheWord : decodeWord 0x8126 = .ok (.shr 1 2) := by decide +kernel

theorem witness_DecoderAcceptsExactlyTheTable : (∃ r ∈ opcodeRows, r.accepts 0x5120 = true) ∧
    wordWellFormed 0x5120 = true ∧ wordWellFormed 0x5121 = false := by decide +kernel

/-- Bytes placed at the last address an instruction can be fetched from. -/
def lastFetch (bs : List Byte) : State := (bytesAt 4094 bs State.reset).setPc 4094

theorem witness_StepRunsTheDecodedInstruction : (lastFetch [0x6A, 0x02]).fault = none ∧
    (lastFetch [0x6A, 0x02]).pc.toNat ≤ 4094 ∧
    decode [Memory.read (lastFetch [0x6A, 0x02]).mem 4094, Memory.read (lastFetch [0x6A, 0x02]).mem 4095] =
      .ok (.ldImm 0xA 0x02, []) := by decide +kernel

theorem witness_IllegalWordFaultsAfterTheAdvance : (lastFetch [0x51, 0x21]).fault = none ∧
    (lastFetch [0x51, 0x21]).pc.toNat ≤ 4094 ∧
    (0x5121 : Word) = Memory.read (lastFetch [0x51, 0x21]).mem 4094 ++ Memory.read (lastFetch [0x51, 0x21]).mem 4095 ∧
    wordWellFormed 0x5121 = false := by decide +kernel

theorem witness_FetchPastMemoryFaults : (State.reset.setPc 4095).fault = none ∧ 4095 ≤ (State.reset.setPc 4095).pc.toNat ∧
    4095 ≤ (State.reset.setPc 0x10FE).pc.toNat := by decide

theorem witness_RunningCoreAlwaysSteps : State.reset.fault = none := by decide

theorem witness_FaultedCoreHasNoStep : (takeFault .stackUnderflow State.reset).fault = some .stackUnderflow := by decide

theorem witness_FaultsArePrecise :
    (∃ t, Machine.step (State.reset.setPc 4095) = .next t ∧ t.fault = some (.outOfRange .memory 4096)) ∧
    ∃ t, Machine.step State.reset = .next t ∧ t.fault = some (.invalidOpcode 0) := ⟨⟨_, rfl, rfl⟩, _, rfl, rfl⟩

theorem witness_ExecuteFaultsAreThoseOfTheTable : executeFault .ret State.reset = some .stackUnderflow ∧
    executeFault (.call 0x300) (State.reset.setStack State.reset.stk 16) = some .stackOverflow ∧
    executeFault (.storeRegs 15) (State.reset.setI 4081) = some (.outOfRange .memory 4096) ∧
    executeFault (.storeRegs 15) (State.reset.setI 4080) = none ∧
    executeFault (.skp 0) (regs [(0, 16)]) = some (.outOfRange .keypad 16) ∧
    executeFault (.skp 0) (regs [(0, 15)]) = none ∧ State.reset.fault = none := by decide +kernel

theorem witness_StepLeavesKeysAndSchedulerAlone : ∃ t, Machine.step (loaded [0x6A, 0x02]) = .next t ∧ t.reg 0xA = 2 :=
  ⟨_, rfl, rfl⟩

theorem witness_OnlyCallAndReturnTouchTheStack : ∃ t, exec (.ldImm 1 2) State.reset = .next t ∧ Instr.ldImm 1 2 ≠ .ret ∧
    ∀ nnn, Instr.ldImm 1 2 ≠ .call nnn := ⟨_, rfl, by decide, fun _ => by simp⟩

theorem witness_RegistersChangeOnlyWhereNamed : ∃ t, exec (.addReg 1 2) State.reset = .next t := ⟨_, rfl⟩

theorem witness_MemoryChangesOnlyWhereStored : ∃ t, exec (.storeRegs 2) (State.reset.setI 0x300) = .next t := ⟨_, rfl⟩

theorem witness_SpecialRegistersHaveTheirOwnWriters : (∃ t, exec (.ldSt 2) State.reset = .next t) ∧
    ∃ t, exec (.rnd 2 0xFF) State.reset = .next t := ⟨⟨_, rfl⟩, _, rfl⟩

theorem witness_InstructionsCannotSeeTheScheduler : ∃ t, Machine.step (loaded [0xF1, 0x15]) = .next t ∧ t.fault = none :=
  ⟨_, rfl, rfl⟩

theorem witness_SoundTimerIsNeverRead : ∃ t, Machine.step (loaded [0xF1, 0x07]) = .next t ∧ t.fault = none := ⟨_, rfl, rfl⟩

/-- A state that meets the invariant with a live return address and a program. -/
theorem witness_StepKeepsTheInvariant :
    ((loaded [0x00, 0xEE]).setStack (State.reset.stk.set 0 0x0204) 1).Inv ∧
    ∃ t, Machine.step ((loaded [0x00, 0xEE]).setStack (State.reset.stk.set 0 0x0204) 1) = .next t ∧ t.pc = 0x0204 :=
  ⟨by decide +kernel, _, rfl, rfl⟩

theorem witness_HostOperationsKeepTheInvariant : ((loaded [0x12, 0x00]).setTacc (1 / 61)).Inv := by decide +kernel

theorem witness_ReachableStatesMeetTheInvariant : Reachable fontDefault
    (hostStep fontDefault (.loadProgram [0x12, 0x00]) (State.resetWith fontDefault)).2 := .between _ (.host _ _ .reset)

/-- A state within a `Tick`, after one of its due instructions. -/
theorem witness_ReachableStatesMeetTheInvariant_inTick : Reachable fontDefault
    (stepLoop 1 ((timerDrain (1 / 250) (State.resetWith fontDefault)).setIacc
      ((timerDrain (1 / 250) (State.resetWith fontDefault)).iacc + 1 / 250))).2 :=
  .inTick _ _ 1 .reset rfl (by decide +kernel)

theorem witness_ResetLeavesTheStatedValues : (Vector.ofFn (fun k => fontBytes.getD k.val 0) : Font) = fontDefault := rfl

theorem witness_MemoryPrimitivesReadBackTheWrite : memRead 4096 State.reset = .error (.outOfRange .memory 4096) ∧
    memWrite 4096 1 State.reset = .error (.outOfRange .memory 4096) ∧ memRead 4095 State.reset = .ok 0 ∧
    ∃ t, memWrite 4095 1 State.reset = .ok t ∧ memRead 4095 t = .ok 1 := ⟨rfl, rfl, rfl, _, rfl, rfl⟩

theorem witness_CanonicalMemoriesThatReadAlikeAreEqual :
    Memory.wf (Memory.write (Memory.write [] 0x300 1) 0x200 2) ∧ Memory.wf (Memory.write (Memory.write [] 0x200 2) 0x300 1) ∧
    ∀ a, Memory.read (Memory.write (Memory.write [] 0x300 1) 0x200 2) a =
      Memory.read (Memory.write (Memory.write [] 0x200 2) 0x300 1) a := ⟨by decide +kernel, by decide +kernel, fun _ => rfl⟩

theorem witness_ReturnPopsTheNewestEntry : 0 < (State.reset.setStack State.reset.stk 1).sp.val ∧
    0 < (State.reset.setStack State.reset.stk 16).sp.val ∧ State.reset.sp.val = 0 := by decide

theorem witness_CallPushesTheAdvancedPc : State.reset.sp.val < 16 ∧ (State.reset.setStack State.reset.stk 15).sp.val < 16 ∧
    (State.reset.setStack State.reset.stk 16).sp.val = 16 := by decide

theorem witness_CallThenReturnResumesAfterTheCall : (State.reset.setStack State.reset.stk 15).sp.val < 16 := by decide

theorem witness_JumpsReplaceThePc : State.reset.fault = none ∧ (0xFFF : Addr) = 0xFFF ∧
    (lastFetch [0x1F, 0xFE]).fault = none ∧ (lastFetch [0x1F, 0xFE]).pc.toNat = (0xFFE : Addr).toNat ∧
    (0xFFE : Addr).toNat ≤ 4094 ∧ decode [Memory.read (lastFetch [0x1F, 0xFE]).mem (0xFFE : Addr).toNat,
      Memory.read (lastFetch [0x1F, 0xFE]).mem ((0xFFE : Addr).toNat + 1)] = .ok (.jp 0xFFE, []) ∧
    4095 ≤ (0xFFE : Addr).toNat + ((regs [(0, 1)]).reg 0).toNat ∧ (regs [(0, 1)]).fault = none := by decide +kernel

/-- A skip word, an illegal word and a jump to 0x200, loaded. -/
def skipping (hi lo : Byte) (s : State) : State := bytesAt 0x200 [hi, lo, 0xFF, 0xFF, 0x12, 0x00] s

/-- The skip in `s` decodes to `i` and the word after the skipped one to a jump, in a running core with room for both. -/
def skipWitness (i : Instr) (s : State) : Bool :=
  decide (s.fault = none ∧ s.pc.toNat + 5 ≤ 4095 ∧
    decode [Memory.read s.mem s.pc.toNat, Memory.read s.mem (s.pc.toNat + 1)] = .ok (i, []) ∧
    decode [Memory.read s.mem (s.pc.toNat + 4), Memory.read s.mem (s.pc.toNat + 5)] = .ok (.jp 0x200, []))

/-- One state for each of the six skips, its condition holding; key 15 is the highest. -/
theorem witness_SkippedWordIsNeverDecoded :
    (skipWitness (.seImm 0 0) (skipping 0x30 0x00 State.reset) = true ∧ State.reset.reg 0 = 0) ∧
    (skipWitness (.sneImm 0 1) (skipping 0x40 0x01 State.reset) = true ∧ State.reset.reg 0 ≠ 1) ∧
    (skipWitness (.seReg 1 2) (skipping 0x51 0x20 State.reset) = true ∧ State.reset.reg 1 = State.reset.reg 2) ∧
    (skipWitness (.sneReg 1 2) (skipping 0x91 0x20 (regs [(1, 1)])) = true ∧ (regs [(1, 1)]).reg 1 ≠ (regs [(1, 1)]).reg 2) ∧
    (skipWitness (.skp 1) (skipping 0xE1 0x9E (keysDown [15] (regs [(1, 15)]))) = true ∧
      ∃ h : ((keysDown [15] (regs [(1, 15)])).reg 1).toNat < 16,
        (keysDown [15] (regs [(1, 15)])).key[((keysDown [15] (regs [(1, 15)])).reg 1).toNat] = true) ∧
    (skipWitness (.sknp 1) (skipping 0xE1 0xA1 (regs [(1, 15)])) = true ∧
      ∃ h : ((regs [(1, 15)]).reg 1).toNat < 16, (regs [(1, 15)]).key[((regs [(1, 15)]).reg 1).toNat] = false) := by
  decide +kernel

/-- The clauses of the flag writers' statements that ask `x ≠ 15`. -/
theorem witness_AddWritesSumAndCarry : (0xE : RegIdx) ≠ vfIdx := by decide

theorem witness_SubtractsWriteDifferenceAndNotBorrow : (0xE : RegIdx) ≠ vfIdx := by decide

theorem witness_ShiftsWriteTheBitShiftedOut : (0xE : RegIdx) ≠ vfIdx := by decide

theorem witness_DecimalDigitsAreStored : (State.reset.setI 4093).i.toNat + 2 ≤ 4095 ∧
    4095 < (State.reset.setI 4094).i.toNat + 2 := by decide

theorem witness_RegistersAreStoredFromIndex : (State.reset.setI 4080).i.toNat + (15 : RegIdx).toNat ≤ 4095 ∧
    4095 < (State.reset.setI 4081).i.toNat + (15 : RegIdx).toNat ∧ (0 : RegIdx).toNat ≤ (15 : RegIdx).toNat := by decide

theorem witness_RegistersAreLoadedFromIndex : (State.reset.setI 4095).i.toNat + (0 : RegIdx).toNat ≤ 4095 ∧
    4095 < (State.reset.setI 4096).i.toNat + (0 : RegIdx).toNat ∧ (0 : RegIdx).toNat < (1 : RegIdx).toNat := by decide

theorem witness_DrawXorsTheSpriteAndReportsCollision : ((0 : Nibble) = 0) ∧
    (State.reset.setI 4081).i.toNat + (15 : Nibble).toNat - 1 ≤ 4095 ∧ (15 : Nibble) ≠ 0 ∧
    4095 < (State.reset.setI 4082).i.toNat + (15 : Nibble).toNat - 1 := by decide

theorem witness_DrawingTwiceRestoresTheGrid : (0 : RegIdx) ≠ vfIdx ∧ (0xE : RegIdx) ≠ vfIdx ∧
    ((5 : Nibble) = 0 ∨ State.reset.i.toNat + (5 : Nibble).toNat - 1 ≤ 4095) := by decide

theorem witness_PresentationMirrorsTheGrid : 63 < 64 ∧ 31 < 32 ∧ (presentation Pixels.blank)[(31 * 64 + 63) * 3 + 2]? = some 0 :=
  by decide +kernel

theorem witness_KeySkipsTestTheLevel : ((regs [(2, 15)]).reg 2).toNat < 16 ∧ 15 < ((regs [(2, 16)]).reg 2).toNat := by
  decide +kernel

theorem witness_KeyWaitTakesTheLowestKeyOrRetries :
    ((keysDown [15] State.reset).key[(15 : Fin 16).val] = true ∧
      ∀ j : Fin 16, j < 15 → (keysDown [15] State.reset).key[j.val] = false) ∧
    (keysDown [0, 15] State.reset).key[(0 : Fin 16).val] = true ∧
    (∀ j : Fin 16, (loaded [0xF3, 0x0A]).key[j.val] = false) ∧ (loaded [0xF3, 0x0A]).fault = none ∧
    (loaded [0xF3, 0x0A]).pc.toNat ≤ 4094 ∧
    decode [Memory.read (loaded [0xF3, 0x0A]).mem 0x200, Memory.read (loaded [0xF3, 0x0A]).mem 0x201] = .ok (.ldKey 3, []) := by
  decide +kernel

theorem witness_TimerDrainClosedForm : 0 ≤ (State.reset.setTacc (1 / 61)).tacc ∧ (0 : Rat) ≤ 1 / 30 := by decide +kernel

theorem witness_TimerDecayIgnoresTheSplit : 0 ≤ (State.reset.setTacc (1 / 61)).tacc ∧ (0 : Rat) ≤ 0 ∧ (0 : Rat) ≤ 1 / 30 := by
  decide +kernel

/-- Two steps of the self-jump are due. -/
theorem witness_TickDecaysTimersThenRunsTheDueSteps : 0 ≤ (loaded [0x12, 0x00]).iacc ∧ (0 : Rat) ≤ 1 / 250 ∧
    1 ≤ (loaded [0x12, 0x00]).rate ∧ (loaded [0x12, 0x00]).fault = none ∧
    ⌊((loaded [0x12, 0x00]).rate : Rat) * ((loaded [0x12, 0x00]).iacc + 1 / 250)⌋₊ = 2 ∧
    ∃ u, Host.Core.run Sys2Proof.core 2 (timerDrain (1 / 250) (loaded [0x12, 0x00])) = .next u ∧ u.fault = none :=
  ⟨by decide +kernel, by decide +kernel, by decide +kernel, by decide +kernel, by decide +kernel, by
    have h : (match Host.Core.run Sys2Proof.core 2 (timerDrain (1 / 250) (loaded [0x12, 0x00])) with
      | .next u => decide (u.fault = none)
      | _ => false) = true := by decide +kernel
    split at h
    · exact ⟨_, ‹_›, of_decide_eq_true h⟩
    · cases h⟩

/-- The refusal of a negative time. -/
theorem witness_TickDecaysTimersThenRunsTheDueSteps_refusal : State.reset.fault = none ∧ (-1 : Rat) < 0 := by decide +kernel

/-- One step that completes, then one that faults, with the last of two due steps the faulting one. -/
theorem witness_FaultStopsTheCoreUntilReset_report : 0 ≤ (loaded [0x60, 0x01, 0x00, 0x00]).iacc ∧ (0 : Rat) ≤ 1 / 250 ∧
    1 ≤ (loaded [0x60, 0x01, 0x00, 0x00]).rate ∧ (loaded [0x60, 0x01, 0x00, 0x00]).fault = none ∧
    1 < ⌊((loaded [0x60, 0x01, 0x00, 0x00]).rate : Rat) * ((loaded [0x60, 0x01, 0x00, 0x00]).iacc + 1 / 250)⌋₊ ∧
    ∃ u, Host.Core.run Sys2Proof.core 1 (timerDrain (1 / 250) (loaded [0x60, 0x01, 0x00, 0x00])) = .next u ∧
      u.fault = none ∧ ∃ v, Machine.step u = .next v ∧ v.fault = some (.invalidOpcode 0) :=
  ⟨by decide +kernel, by decide +kernel, by decide +kernel, by decide +kernel, by decide +kernel, by
    have h : (match Host.Core.run Sys2Proof.core 1 (timerDrain (1 / 250) (loaded [0x60, 0x01, 0x00, 0x00])) with
      | .next u => decide (u.fault = none) && (match Machine.step u with
        | .next v => decide (v.fault = some (.invalidOpcode 0))
        | _ => false)
      | _ => false) = true := by decide +kernel
    split at h
    · rename_i u hu
      rw [Bool.and_eq_true] at h
      obtain ⟨h0, h⟩ := h
      split at h
      · exact ⟨u, hu, of_decide_eq_true h0, _, ‹_›, of_decide_eq_true h⟩
      · cases h
    · cases h⟩

theorem witness_FaultStopsTheCoreUntilReset : (∃ t, hostStep fontDefault (.tick (1 / 500)) State.reset = (.fault (.invalidOpcode 0), t)) ∧
    HostOp.tick 1 ≠ .reset ∧ HostOp.tick 1 ≠ .readDisplay :=
  ⟨⟨_, Prod.ext (by decide +kernel) rfl⟩, by decide, by decide⟩

theorem witness_LoadProgramCopiesTheBytes : State.reset.fault = none ∧ (List.replicate 3584 (1 : Byte)).length ≤ 3584 ∧
    3584 < (List.replicate 3585 (1 : Byte)).length := by
  simp only [List.length_replicate]
  decide

theorem witness_SettingKeysAndRate : State.reset.fault = none ∧ 1 ≤ 1 ∧ 65535 ≤ 65535 ∧
    ∀ n : Nat, 1 ≤ n → n ≤ 65535 → (1 / 2 : Rat) ≠ n := by
  refine ⟨by decide, by decide, by decide, fun n h _ he => ?_⟩
  have h2 : (1 : Rat) ≤ n := by exact_mod_cast h
  rw [← he] at h2
  norm_num at h2

end Sys2Proof.Tests
end

section
/-! PROOFS of the encoding family (30_encoding.md). What the decoder accepts it reads without loss, so an accepted word is
the encoding of an instruction and stands in the opcode table; a word outside the table is therefore rejected. -/

namespace Sys2Proof

/-- Family 0 keeps the 12 bits it was decided by. -/
theorem encode_of_decodeFamily0 (nnn : Addr) (i : Instr) (h : decodeFamily0 nnn = some i) :
    encode i = 0x0#4 ++ nnn := by
  unfold decodeFamily0 at h
  split at h <;> cases h <;> rfl

/-- Family 8 keeps both registers and the nibble it was decided by. -/
theorem encode_of_decodeFamily8 (x y : RegIdx) (n : Nibble) (i : Instr) (h : decodeFamily8 x y n = some i) :
    encode i = 0x8#4 ++ x ++ y ++ n := by
  unfold decodeFamily8 at h
  split at h <;> cases h <;> rfl

/-- Family E keeps the register and the byte it was decided by. -/
theorem encode_of_decodeFamilyE (x : RegIdx) (nn : Byte) (i : Instr) (h : decodeFamilyE x nn = some i) :
    encode i = 0xE#4 ++ x ++ nn := by
  unfold decodeFamilyE at h
  split at h <;> cases h <;> rfl

/-- Family F keeps the register and the byte it was decided by. -/
theorem encode_of_decodeFamilyF (x : RegIdx) (nn : Byte) (i : Instr) (h : decodeFamilyF x nn = some i) :
    encode i = 0xF#4 ++ x ++ nn := by
  unfold decodeFamilyF at h
  split at h <;> cases h <;> rfl

/-- An accepted word is put together again from the fields its family reads (R91 to R96, R99). -/
theorem encode_of_decodeFields (w : Word) (i : Instr) (h : decodeFields w = some i) : encode i = w := by
  unfold decodeFields at h
  split at h
  case h_1 hf => rw [encode_of_decodeFamily0 _ i h, ← hf, word_eq_a]
  case h_2 hf | h_3 hf | h_11 hf | h_12 hf => cases h; rw [encode, ← hf, word_eq_a]
  case h_4 hf | h_5 hf | h_7 hf | h_8 hf | h_13 hf => cases h; rw [encode, ← hf, word_eq_xk]
  case h_6 hf | h_10 hf =>
    split at h
    · rename_i hn
      cases h
      rw [encode, ← hf, show 0x0#4 = fieldN w from hn.symm, word_eq_xyn]
    · cases h
  case h_9 hf => rw [encode_of_decodeFamily8 _ _ _ i h, ← hf, word_eq_xyn]
  case h_14 hf => cases h; rw [encode, ← hf, word_eq_xyn]
  case h_15 hf => rw [encode_of_decodeFamilyE _ _ i h, ← hf, word_eq_xk]
  case h_16 hf => rw [encode_of_decodeFamilyF _ _ i h, ← hf, word_eq_xk]
  case h_17 => cases h

/-- An accepted word is the encoding of the instruction it decodes to. -/
theorem encode_of_decodeWord (w : Word) (i : Instr) (h : decodeWord w = .ok i) : encode i = w := by
  unfold decodeWord at h
  split at h
  · rename_i hd
    cases h
    exact encode_of_decodeFields w _ hd
  · cases h

/-- The encoding of every instruction has the fixed bits of a row of the opcode table. -/
theorem row_accepts_encode (i : Instr) : Laws.TableRow.Statement i :=
  match i with
  | .cls => Laws.TableRow.cls
  | .ret => Laws.TableRow.ret
  | .jp nnn => Laws.TableRow.jp nnn
  | .call nnn => Laws.TableRow.call nnn
  | .seImm x nn => Laws.TableRow.seImm x nn
  | .sneImm x nn => Laws.TableRow.sneImm x nn
  | .seReg x y => Laws.TableRow.seReg x y
  | .ldImm x nn => Laws.TableRow.ldImm x nn
  | .addImm x nn => Laws.TableRow.addImm x nn
  | .ldReg x y => Laws.TableRow.ldReg x y
  | .orReg x y => Laws.TableRow.orReg x y
  | .andReg x y => Laws.TableRow.andReg x y
  | .xorReg x y => Laws.TableRow.xorReg x y
  | .addReg x y => Laws.TableRow.addReg x y
  | .subReg x y => Laws.TableRow.subReg x y
  | .shr x y => Laws.TableRow.shr x y
  | .subnReg x y => Laws.TableRow.subnReg x y
  | .shl x y => Laws.TableRow.shl x y
  | .sneReg x y => Laws.TableRow.sneReg x y
  | .ldI nnn => Laws.TableRow.ldI nnn
  | .jpV0 nnn => Laws.TableRow.jpV0 nnn
  | .rnd x nn => Laws.TableRow.rnd x nn
  | .drw x y n => Laws.TableRow.drw x y n
  | .skp x => Laws.TableRow.skp x
  | .sknp x => Laws.TableRow.sknp x
  | .ldRegDt x => Laws.TableRow.ldRegDt x
  | .ldKey x => Laws.TableRow.ldKey x
  | .ldDt x => Laws.TableRow.ldDt x
  | .ldSt x => Laws.TableRow.ldSt x
  | .addI x => Laws.TableRow.addI x
  | .ldFont x => Laws.TableRow.ldFont x
  | .ldBcd x => Laws.TableRow.ldBcd x
  | .storeRegs x => Laws.TableRow.storeRegs x
  | .loadRegs x => Laws.TableRow.loadRegs x

/-- The encoding of every instruction is a well-formed word. -/
theorem wordWellFormed_encode (i : Instr) : wordWellFormed (encode i) = true := by
  obtain ⟨hmem, hacc⟩ := row_accepts_encode i
  exact List.any_eq_true.mpr ⟨i.row, hmem, hacc⟩

/-- A word that no row of the table accepts is rejected with `InvalidOpcode` (R100): did it decode, it would be the encoding
of an instruction. -/
theorem decodeWord_of_not_wellFormed (w : Word) (h : wordWellFormed w = false) :
    decodeWord w = .error (.invalidOpcode w) := by
  cases hd : decodeWord w with
  | ok i =>
    have hw := wordWellFormed_encode i
    rw [encode_of_decodeWord w i hd, h] at hw
    cases hw
  | error e => rw [Machine.decodeWord_error w e hd]

end Sys2Proof

namespace Sys2Proof.Machine

/-- Settles O7: the fetch succeeds, the word outside the table does not decode, and the fault is taken in the state whose pc
was advanced. -/
theorem illegalWordFaultsAfterTheAdvance : Obligations.IllegalWordFaultsAfterTheAdvance := by
  intro s op hrun hpc hop hill
  have hfetch : fetch s = .ok op := by rw [hop]; exact fetch_of_le s hpc
  calc step s
      = runWord op (advancePc s) := step_of_fetch_ok s op hrun hfetch
    _ = .next (takeFault (.invalidOpcode op) (advancePc s)) :=
        runWord_error op _ _ (decodeWord_of_not_wellFormed op hill)
    _ = .next { s with pc := s.pc + 2, fault := some (.invalidOpcode op) } := rfl

end Sys2Proof.Machine
end

section
/-! PROOFS of the control transfer family (40_flow.md). The pc of a jump is its target, unmasked; from there the laws of the
fetch say which target faults at the next step, and a step that answers its own state answers it for ever. -/

namespace Sys2Proof.Machine

theorem exec_jp (nnn : Addr) (s : State) : exec (.jp nnn) s = .next (s.setPc (addrWord nnn)) := rfl

theorem exec_jpV0 (nnn : Addr) (s : State) :
    exec (.jpV0 nnn) s = .next (s.setPc (addrWord nnn + byteWord (s.reg 0))) := rfl

theorem exec_seImm (x : RegIdx) (nn : Byte) (s : State) :
    exec (.seImm x nn) s = .next (skipIf (s.reg x == nn) s) := rfl

theorem exec_sneImm (x : RegIdx) (nn : Byte) (s : State) :
    exec (.sneImm x nn) s = .next (skipIf (s.reg x != nn) s) := rfl

theorem setPc_onlyPc (s : State) (w : Word) : OnlyPc s (s.setPc w) := rfl

/-- The pc put back to what it was before the advance of a step. -/
@[simp] theorem advancePc_setPc_pc (s : State) : (advancePc s).setPc s.pc = s := rfl

@[simp] theorem addrWord_toNat (nnn : Addr) : (addrWord nnn).toNat = nnn.toNat :=
  BitVec.toNat_setWidth_of_le (by decide)

@[simp] theorem byteWord_toNat (b : Byte) : (byteWord b).toNat = b.toNat :=
  BitVec.toNat_setWidth_of_le (by decide)

/-- The target of `Bnnn` is a true sum: 12 bits and 8 bits never pass 16 (R124). -/
theorem addrWord_add_byteWord_toNat (nnn : Addr) (b : Byte) :
    (addrWord nnn + byteWord b).toNat = nnn.toNat + b.toNat := by
  have hn := nnn.isLt
  have hb := b.isLt
  rw [BitVec.toNat_add, addrWord_toNat, byteWord_toNat]
  omega

/-- The skip as one update of the pc. -/
theorem skipIf_eq_setPc (c : Bool) (s : State) : skipIf c s = s.setPc (if c then s.pc + 2 else s.pc) := by
  cases c <;> rfl

/-- Two bytes that decode to an instruction are a word that decodes to it. -/
theorem decodeWord_of_decode (hi lo : Byte) (i : Instr) (h : decode [hi, lo] = .ok (i, [])) :
    decodeWord (joinBytes hi lo) = .ok i := by
  rw [decode] at h
  cases hd : decodeWord (joinBytes hi lo) with
  | ok j => rw [hd] at h; cases h; rfl
  | error e => rw [hd] at h; cases h

/-- A step of a running core whose two bytes at the pc decode executes that instruction after the advance (R230 to R234). -/
theorem step_of_decode (s : State) (i : Instr) (hrun : s.fault = none) (hpc : s.pc.toNat ≤ 4094)
    (hd : decode [Memory.read s.mem s.pc.toNat, Memory.read s.mem (s.pc.toNat + 1)] = .ok (i, [])) :
    step s = exec i (advancePc s) := by
  rw [step_of_fetch_ok s _ hrun (fetch_of_le s hpc), runWord_ok _ i _ (decodeWord_of_decode _ _ i hd)]

/-- A running core whose pc has left the last fetchable address faults, and the index it records is not wrapped (R231). -/
theorem step_of_pc_ge (s : State) (hrun : s.fault = none) (hpc : 4095 ≤ s.pc.toNat) :
    ∃ u, step s = .next u ∧ u.fault = some (.outOfRange .memory (max s.pc.toNat 4096)) :=
  ⟨_, step_of_fetch_error s _ hrun (fetch_of_gt s hpc), rfl⟩

/-- A state of a core that steps to itself is where every run from it ends. -/
theorem run_of_step_self (M : Host.Core) (s : M.State) (h : M.step s = .next s) (k : Nat) : M.run k s = .next s := by
  induction k with
  | zero => rfl
  | succ k ih => rw [Host.Core.run, h]; exact ih

/-- A running core at a jump to the jump's own address steps to itself: the target takes the advance back (R122). -/
theorem step_of_jump_to_self (s : State) (nnn : Addr) (hrun : s.fault = none) (hself : s.pc.toNat = nnn.toNat)
    (hle : nnn.toNat ≤ 4094)
    (hd : decode [Memory.read s.mem nnn.toNat, Memory.read s.mem (nnn.toNat + 1)] = .ok (.jp nnn, [])) :
    step s = .next s := by
  have hpc : addrWord nnn = s.pc := BitVec.eq_of_toNat_eq (by rw [addrWord_toNat, hself])
  rw [← hself] at hle hd
  calc step s
      = exec (.jp nnn) (advancePc s) := step_of_decode s _ hrun hle hd
    _ = .next ((advancePc s).setPc s.pc) := by rw [exec_jp, hpc]
    _ = .next s := by rw [advancePc_setPc_pc]

/-- Settles O30: each jump is one update of the pc to a target that never wraps, so a target past the last fetchable address
meets the fetch fault, and a jump to itself is a step from its state to the same state. -/
theorem jumpsReplaceThePc : Obligations.JumpsReplaceThePc := by
  intro nnn s
  refine ⟨rfl, rfl, ⟨_, exec_jp nnn s, addrWord_toNat nnn, setPc_onlyPc s _, fun hrun hlast => ?_,
    fun hrun hself hle hd => run_of_step_self core s (step_of_jump_to_self s nnn hrun hself hle hd)⟩,
    ⟨_, exec_jpV0 nnn s, addrWord_add_byteWord_toNat nnn _, setPc_onlyPc s _, fun hrun hge => ?_⟩⟩
  · subst hlast
    exact step_of_pc_ge (s.setPc (addrWord 0xFFF)) hrun (addrWord_toNat 0xFFF).ge
  · rw [← addrWord_add_byteWord_toNat] at hge ⊢
    exact step_of_pc_ge (s.setPc (addrWord nnn + byteWord (s.reg 0))) hrun hge

/-- Settles O31: both skips are the one skip mechanism, under a condition and under its negation. -/
theorem skipsComparingAnImmediate : Obligations.SkipsComparingAnImmediate := by
  intro x nn s
  refine ⟨rfl, rfl, ?_, ?_⟩
  · rw [exec_seImm, skipIf_eq_setPc]
    simp only [State.setPc, beq_iff_eq]
  · rw [exec_sneImm, skipIf_eq_setPc]
    simp only [State.setPc, bne_iff_ne, ne_eq, ite_not]

end Sys2Proof.Machine
end

section
/-! PROOFS of the index and memory family (42_index_memory.md). `Annn` and `Fx29` are one update of `I` each, to a value that
never wraps. -/

namespace Sys2Proof.Machine

theorem exec_ldI (nnn : Addr) (s : State) : exec (.ldI nnn) s = .next (s.setI (addrWord nnn)) := rfl

theorem exec_ldFont (x : RegIdx) (s : State) : exec (.ldFont x) s = .next (s.setI (glyphAddr (s.reg x))) := rfl

theorem setI_onlyI (s : State) (w : Word) : OnlyI s (s.setI w) := rfl

/-- The address of a glyph is a true product over all 8 bits: at most 1275, it never passes 16 bits (R173). -/
@[simp] theorem glyphAddr_toNat (b : Byte) : (glyphAddr b).toNat = b.toNat * 5 := by
  have hb : b.toNat * 5 < 2 ^ 16 := by have := b.isLt; omega
  calc (glyphAddr b).toNat
      = (byteWord b).toNat * 5 % 2 ^ 16 := BitVec.toNat_mul _ _
    _ = b.toNat * 5 := by rw [byteWord_toNat, Nat.mod_eq_of_lt hb]

/-- Settles O40: each of the two is one update of `I`, and neither the 12 bits of `nnn` nor the product wraps. -/
theorem loadIndexAndGlyphAddress : Obligations.LoadIndexAndGlyphAddress := by
  intro nnn x s
  exact ⟨rfl, rfl, ⟨_, exec_ldI nnn s, addrWord_toNat nnn, setI_onlyI s _⟩,
    ⟨_, exec_ldFont x s, glyphAddr_toNat _, setI_onlyI s _⟩⟩

end Sys2Proof.Machine
end

section
/-! PROOFS of the display family (43_display.md). `00E0` is one update of the grid, and a grid whose pixels are all off is
presented as black bytes only. -/

namespace Sys2Proof.Machine

theorem exec_cls (s : State) : exec .cls s = .next (s.setPix Pixels.blank) := rfl

theorem Pixels.color_of_off {p : Pixels} {cx cy : Nat} (h : p.isOn cx cy = false) : p.color cx cy = Config.colorOff := by
  rw [Pixels.color, h, if_neg Bool.false_ne_true]

theorem rgbBytes_colorOff : rgbBytes Config.colorOff = List.replicate 3 0 := rfl

/-- A grid with every pixel off is presented as 2048 black pixels of three zero bytes each (R42). -/
theorem presentation_of_all_off {p : Pixels} (h : ∀ cx cy, p.isOn cx cy = false) :
    presentation p = List.replicate 6144 0 := by
  have hpixel (k : Nat) : rgbBytes (p.color (k % 64) (k / 64)) = List.replicate 3 0 := by
    rw [Pixels.color_of_off (h _ _), rgbBytes_colorOff]
  calc presentation p
      = (List.range 2048).flatMap (fun _ => List.replicate 3 0) := by simp only [presentation, hpixel]
    _ = (List.replicate 2048 (List.replicate 3 0)).flatten := by
        rw [List.flatMap_def, List.map_const', List.length_range]
    _ = List.replicate 6144 0 := List.flatten_replicate_replicate

/-- Settles O46: `00E0` puts the blank grid in place of the grid and does nothing else, and no pixel of the blank grid is
on. -/
theorem clearTurnsEveryPixelOff : Obligations.ClearTurnsEveryPixelOff := by
  intro s
  exact ⟨rfl, _, exec_cls s, Pixels.isOn_blank, presentation_of_all_off Pixels.isOn_blank, rfl⟩

end Sys2Proof.Machine
end

section
/-! PROOFS of the encoding family, continued (30_encoding.md): decoding and encoding undo each other. -/

namespace Sys2Proof

/-- The instruction is read back from the fields of its format (R91 to R96, R99). -/
theorem decodeFields_encode (i : Instr) : decodeFields (encode i) = some i := by
  cases i with
  | cls | ret => rfl
  | jp nnn | call nnn | ldI nnn | jpV0 nnn => simp [encode, decodeFields]
  | seImm x nn | sneImm x nn | ldImm x nn | addImm x nn | rnd x nn => simp [encode, decodeFields]
  | seReg x y | sneReg x y | drw x y n => simp [encode, decodeFields]
  | ldReg x y | orReg x y | andReg x y | xorReg x y | addReg x y | subReg x y | shr x y | subnReg x y | shl x y =>
    simp [encode, decodeFields, decodeFamily8]
  | skp x | sknp x => simp [encode, decodeFields, decodeFamilyE]
  | ldRegDt x | ldKey x | ldDt x | ldSt x | addI x | ldFont x | ldBcd x | storeRegs x | loadRegs x =>
    simp [encode, decodeFields, decodeFamilyF]

/-- Decoding the word of an instruction gives that instruction. -/
theorem decodeWord_encode (i : Instr) : decodeWord (encode i) = .ok i := by
  rw [decodeWord, decodeFields_encode]

/-- Settles O1: the two bytes join to the word of the instruction again, and that word decodes to it. -/
theorem decodeOfEncodeIsTheInstruction : Obligations.DecodeOfEncodeIsTheInstruction := by
  intro i rest
  simp only [encodeBytes, wordBytes, List.cons_append, List.nil_append, decode, joinBytes_wordBytes, decodeWord_encode]

/-- Settles O2: an accepted word is put together again from the fields its family reads. -/
theorem encodeOfDecodeIsTheWord : Obligations.EncodeOfDecodeIsTheWord :=
  encode_of_decodeWord

/-- Settles O5: the eleven words are decoded. -/
theorem sampleWordsDecodeAsListed : Obligations.SampleWordsDecodeAsListed := by
  unfold Obligations.SampleWordsDecodeAsListed
  decide +kernel

end Sys2Proof
end

section
/-! PROOFS of the encoding family, continued (30_encoding.md R97 to R100): the illegal words family by family, and the decoder
held against the opcode table. A row fixes every field that could make a word of it illegal, so its words decode as its
pattern does. -/

namespace Sys2Proof

theorem decodeFamily0_eq_none (nnn : Addr) : decodeFamily0 nnn = none ↔ nnn ≠ 0x0E0 ∧ nnn ≠ 0x0EE := by
  unfold decodeFamily0
  split <;> simp_all

theorem decodeFamily8_eq_none (x y : RegIdx) (n : Nibble) :
    decodeFamily8 x y n = none ↔ n ∈ ([0x8, 0x9, 0xA, 0xB, 0xC, 0xD, 0xF] : List Nibble) := by
  unfold decodeFamily8
  split
  case h_10 => simp only [true_iff]; clear x y; decide +revert
  all_goals simp

theorem decodeFamilyE_eq_none (x : RegIdx) (nn : Byte) :
    decodeFamilyE x nn = none ↔ nn ∉ ([0x9E, 0xA1] : List Byte) := by
  unfold decodeFamilyE
  split <;> simp_all

theorem decodeFamilyF_eq_none (x : RegIdx) (nn : Byte) :
    decodeFamilyF x nn = none ↔ nn ∉ ([0x07, 0x0A, 0x15, 0x18, 0x1E, 0x29, 0x33, 0x55, 0x65] : List Byte) := by
  unfold decodeFamilyF
  split <;> simp_all

theorem eq_append_iff (w : Word) (f : Nibble) (k : Addr) : w = f ++ k ↔ fieldFamily w = f ∧ fieldNNN w = k := by
  constructor
  · rintro rfl
    exact ⟨fieldFamily_a f k, fieldNNN_a f k⟩
  · rintro ⟨rfl, rfl⟩
    exact (word_eq_a w).symm

/-- A family-0 word is one of the two instructions exactly when its low 12 bits say so. -/
theorem family0_ne_iff (w : Word) (h : fieldFamily w = 0x0#4) (k : Addr) : w ≠ 0x0#4 ++ k ↔ fieldNNN w ≠ k := by
  rw [Ne, eq_append_iff, and_iff_right h]

theorem decodeFields_eq_none_iff (w : Word) : decodeFields w = none ↔
    (fieldFamily w = 0x0 ∧ fieldNNN w ≠ 0x0E0 ∧ fieldNNN w ≠ 0x0EE) ∨
    (fieldFamily w = 0x5 ∧ fieldN w ≠ 0) ∨
    (fieldFamily w = 0x8 ∧ fieldN w ∈ ([0x8, 0x9, 0xA, 0xB, 0xC, 0xD, 0xF] : List Nibble)) ∨
    (fieldFamily w = 0x9 ∧ fieldN w ≠ 0) ∨
    (fieldFamily w = 0xE ∧ fieldNN w ∉ ([0x9E, 0xA1] : List Byte)) ∨
    (fieldFamily w = 0xF ∧ fieldNN w ∉ ([0x07, 0x0A, 0x15, 0x18, 0x1E, 0x29, 0x33, 0x55, 0x65] : List Byte)) := by
  unfold decodeFields
  split
  case h_17 => exfalso; generalize fieldFamily w = f at *; revert f; decide
  case h_1 h => simp [h, decodeFamily0_eq_none]
  case h_9 h => simp [h, decodeFamily8_eq_none]
  case h_15 h => simp [h, decodeFamilyE_eq_none]
  case h_16 h => simp [h, decodeFamilyF_eq_none]
  all_goals next h => simp [h]

theorem decodeWord_eq_error_iff (w : Word) : decodeWord w = .error (.invalidOpcode w) ↔ decodeFields w = none := by
  unfold decodeWord
  cases decodeFields w <;> simp

/-- Settles O4: the word is rejected exactly where the arm of its family answers nothing. -/
theorem illegalWordsFamilyByFamily : Obligations.IllegalWordsFamilyByFamily := by
  intro w
  rw [decodeWord_eq_error_iff, decodeFields_eq_none_iff]
  refine or_congr_left (and_congr_right fun h => ?_)
  rw [← family0_ne_iff w h, ← family0_ne_iff w h]
  rfl

/-- Where a row's mask covers a field, the row accepts only words with the pattern's own field. -/
theorem extractLsb'_of_accepts {r : Row} {w : Word} (hw : r.accepts w = true) (start len : Nat)
    (hm : r.mask.extractLsb' start len = BitVec.allOnes len) :
    w.extractLsb' start len = r.pattern.extractLsb' start len := by
  rw [← beq_iff_eq.1 hw, BitVec.extractLsb'_and, hm, BitVec.and_allOnes]

/-- Every row fixes the family nibble, and the field its family is decided by (R97, R99). -/
theorem rows_fix_deciding_fields : ∀ r ∈ opcodeRows, fieldFamily r.mask = 0xF ∧
    (fieldFamily r.pattern = 0x0 → fieldNNN r.mask = 0xFFF) ∧
    (fieldFamily r.pattern ∈ ([0x5, 0x8, 0x9] : List Nibble) → fieldN r.mask = 0xF) ∧
    (fieldFamily r.pattern ∈ ([0xE, 0xF] : List Nibble) → fieldNN r.mask = 0xFF) := by
  decide +kernel

theorem rows_patterns_decode : ∀ r ∈ opcodeRows, decodeFields r.pattern ≠ none := by
  decide +kernel

/-- A word that a row accepts decodes: the row fixes every field that could make it illegal, and its pattern decodes. -/
theorem decodeFields_of_accepts {r : Row} {w : Word} (hr : r ∈ opcodeRows) (hw : r.accepts w = true) :
    decodeFields w ≠ none := by
  obtain ⟨hmf, hm0, hmN, hmNN⟩ := rows_fix_deciding_fields r hr
  have hf : fieldFamily w = fieldFamily r.pattern := extractLsb'_of_accepts hw 12 4 hmf
  have hNNN (h : fieldFamily r.pattern = 0x0) : fieldNNN w = fieldNNN r.pattern :=
    extractLsb'_of_accepts hw 0 12 (hm0 h)
  have hN (h : fieldFamily r.pattern ∈ ([0x5, 0x8, 0x9] : List Nibble)) : fieldN w = fieldN r.pattern :=
    extractLsb'_of_accepts hw 0 4 (hmN h)
  have hNN (h : fieldFamily r.pattern ∈ ([0xE, 0xF] : List Nibble)) : fieldNN w = fieldNN r.pattern :=
    extractLsb'_of_accepts hw 0 8 (hmNN h)
  refine mt (fun hnone => ?_) (rows_patterns_decode r hr)
  rw [decodeFields_eq_none_iff, hf] at hnone
  rw [decodeFields_eq_none_iff]
  rcases hnone with ⟨h, hw⟩ | ⟨h, hw⟩ | ⟨h, hw⟩ | ⟨h, hw⟩ | ⟨h, hw⟩ | ⟨h, hw⟩
  · rw [hNNN h] at hw; exact .inl ⟨h, hw⟩
  · rw [hN (by simp [h])] at hw; exact .inr (.inl ⟨h, hw⟩)
  · rw [hN (by simp [h])] at hw; exact .inr (.inr (.inl ⟨h, hw⟩))
  · rw [hN (by simp [h])] at hw; exact .inr (.inr (.inr (.inl ⟨h, hw⟩)))
  · rw [hNN (by simp [h])] at hw; exact .inr (.inr (.inr (.inr (.inl ⟨h, hw⟩))))
  · rw [hNN (by simp [h])] at hw; exact .inr (.inr (.inr (.inr (.inr ⟨h, hw⟩))))

/-- Two rows of the table that agree where both fix a bit are the same row. -/
theorem rows_disjoint : ∀ r ∈ opcodeRows, ∀ q ∈ opcodeRows, r.pattern &&& q.mask = q.pattern &&& r.mask → r = q := by
  decide +kernel

/-- Two rows that accept one word agree where both fix a bit. -/
theorem patterns_agree_of_accepts {r q : Row} {w : Word} (hr : r.accepts w = true) (hq : q.accepts w = true) :
    r.pattern &&& q.mask = q.pattern &&& r.mask := by
  rw [← beq_iff_eq.1 hr, ← beq_iff_eq.1 hq, BitVec.and_assoc, BitVec.and_assoc, BitVec.and_comm r.mask]

/-- Settles O3: no two rows agree on the bits both fix; a word of a row decodes, and is then the encoding of an instruction,
which its own row accepts; a word of no row is rejected. -/
theorem decoderAcceptsExactlyTheTable : Obligations.DecoderAcceptsExactlyTheTable := by
  refine ⟨rfl, fun w r q hr hq hrw hqw => rows_disjoint r hr q hq (patterns_agree_of_accepts hrw hqw),
    fun w => ⟨fun hw => ?_, decodeWord_of_not_wellFormed w⟩⟩
  obtain ⟨r, hr, hrw⟩ := List.any_eq_true.1 hw
  obtain ⟨i, hi⟩ := Option.ne_none_iff_exists'.1 (decodeFields_of_accepts hr hrw)
  have hdec : decodeWord w = .ok i := by rw [decodeWord, hi]
  obtain ⟨-, hrow⟩ := row_accepts_encode i
  rw [encode_of_decodeWord w i hdec] at hrow
  exact ⟨i, hdec, hrow⟩

end Sys2Proof
end

section
/-! PROOFS about every instruction and every step (50_cycle_and_scheduler.md, 60_exceptions.md; the frames of 10_state.md).
An instruction makes one of eleven changes to the state; what no instruction writes, and who writes the rest, is read off
them. -/

namespace Sys2Proof.Machine

/-- What an instruction may do to the state it runs in, one constructor per piece of state, each with the instructions that
do it: a fault latched, a move of the pc, a pop, a push, registers, a random draw, the grid, `I`, a timer, or memory. -/
inductive Change (i : Instr) (s : State) : State → Prop where
  | fault (f : Fault) : Change i s (takeFault f s)
  | pc (w : Word) (hw : w.toNat ≤ 0x10FE ∨ w = s.pc ∨ w = s.pc + 2 ∨ w = s.pc - 2) : Change i s (s.setPc w)
  | pop (hi : i = .ret) (h : 0 < s.sp.val) :
    Change i s ((s.setStack s.stk ⟨s.sp.val - 1, by omega⟩).setPc (s.stk[s.sp.val - 1]'(by omega)))
  | push (nnn : Addr) (hi : i = .call nnn) (h : s.sp.val < 16) :
    Change i s ((s.setStack (s.stk.set s.sp.val s.pc h) ⟨s.sp.val + 1, Nat.succ_lt_succ h⟩).setPc (addrWord nnn))
  | regs (v : Vector Byte 16) (hv : SameRegsBut (writtenRegs i) s { s with v := v }) : Change i s { s with v := v }
  | draw (v : Vector Byte 16) (hi : ∃ x nn, i = .rnd x nn) (hv : SameRegsBut (writtenRegs i) s { s with v := v }) :
    Change i s { s with v := v, draws := s.draws + 1 }
  | grid (v : Vector Byte 16) (p : Pixels) (hi : i = .cls ∨ ∃ x y n, i = .drw x y n)
    (hv : SameRegsBut (writtenRegs i) s { s with v := v }) : Change i s { s with v := v, pix := p }
  | index (w : Word) (hi : (∃ nnn, i = .ldI nnn) ∨ (∃ x, i = .addI x) ∨ ∃ x, i = .ldFont x) : Change i s (s.setI w)
  | delay (b : Byte) (hi : ∃ x, i = .ldDt x) : Change i s (s.setDt b)
  | sound (b : Byte) (hi : ∃ x, i = .ldSt x) : Change i s (s.setSt b)
  | memory (bs : List Byte) (hn : bs.length = storedCount i) (ha : indexAddr s 0 + bs.length ≤ 4096) :
    Change i s (s.setMem (Memory.writeAll s.mem (indexAddr s 0) bs))

theorem setReg_sameRegsBut (s : State) (x : RegIdx) (b : Byte) : SameRegsBut [x] s (s.setReg x b) := by
  intro r hr
  exact reg_setReg_of_ne s x r b (by simpa using hr)

theorem setResultFlag_sameRegsBut (s : State) (x : RegIdx) (r : Byte × Bool) :
    SameRegsBut [x, vfIdx] s (setResultFlag x r s) := by
  intro q hq
  simp only [List.mem_cons, List.not_mem_nil, or_false, not_or] at hq
  rw [setResultFlag_reg, if_neg hq.2, if_neg hq.1]

/-- The registers of the range `V0..Vx`, and no others, have an index up to `x`. -/
theorem mem_writtenRegs_loadRegs (x r : RegIdx) : r ∈ writtenRegs (.loadRegs x) ↔ r.toNat ≤ x.toNat := by
  simp only [writtenRegs, List.mem_map, List.mem_range]
  constructor
  · rintro ⟨k, hk, rfl⟩
    have := x.isLt
    rw [BitVec.toNat_ofNat]
    omega
  · intro h
    exact ⟨r.toNat, by omega, by simp⟩

/-- The bytes that a load of `V0..Vx` finds go to registers of that range. -/
theorem setRegsFrom_sameRegsBut (s : State) (x : RegIdx) (bs : List Byte) (h : bs.length = x.toNat + 1) :
    SameRegsBut (writtenRegs (.loadRegs x)) s (setRegsFrom 0 bs s) := by
  intro r hr
  rw [mem_writtenRegs_loadRegs] at hr
  have := x.isLt
  rw [setRegsFrom_reg _ _ _ _ (by omega), if_neg (by omega)]

/-- Registers loaded from a list are one update of the register file. -/
theorem setRegsFrom_eq (bs : List Byte) (k : Nat) (s : State) :
    setRegsFrom k bs s = { s with v := (setRegsFrom k bs s).v } :=
  congrArg (fun t : State => { t with v := (setRegsFrom k bs s).v }) (setRegsFrom_frame bs k s)

theorem skipIf_change (i : Instr) (c : Bool) (s : State) : Change i s (skipIf c s) := by
  rw [skipIf_eq_setPc]
  cases c
  · exact .pc _ (.inr (.inl rfl))
  · exact .pc _ (.inr (.inr (.inl rfl)))

/-- A jump goes to 0x10FE at most (R25, R124). -/
theorem jump_target_le (nnn : Addr) (b : Byte) : (addrWord nnn + byteWord b).toNat ≤ 0x10FE := by
  have := nnn.isLt
  have := b.isLt
  rw [addrWord_add_byteWord_toNat]
  omega

theorem addrWord_le (nnn : Addr) : (addrWord nnn).toNat ≤ 0x10FE := by
  have := nnn.isLt
  rw [addrWord_toNat]
  omega

/-- Every instruction that answers a next state makes one of the changes. -/
theorem exec_change {i : Instr} {s t : State} (h : exec i s = .next t) : Change i s t := by
  have hr := exec_cases i s t h
  cases i
  case cls => obtain rfl := hr; exact .grid s.v _ (.inl rfl) fun _ _ => rfl
  case jp nnn => obtain rfl := hr; exact .pc _ (.inl (addrWord_le nnn))
  case jpV0 nnn => obtain rfl := hr; exact .pc _ (.inl (jump_target_le nnn _))
  case ret =>
    obtain ⟨f, rfl⟩ | ⟨hsp, rfl⟩ := hr
    · exact .fault f
    · exact .pop rfl hsp
  case call nnn =>
    obtain ⟨f, rfl⟩ | ⟨hsp, rfl⟩ := hr
    · exact .fault f
    · exact .push nnn rfl hsp
  case seImm | sneImm | seReg | sneReg => obtain ⟨c, rfl⟩ := hr; exact skipIf_change _ c s
  case skp | sknp =>
    obtain ⟨f, rfl⟩ | ⟨c, rfl⟩ := hr
    · exact .fault f
    · exact skipIf_change _ c s
  case ldImm | addImm | ldReg | orReg | andReg | xorReg | ldRegDt =>
    obtain ⟨b, rfl⟩ := hr; exact .regs _ (setReg_sameRegsBut s _ b)
  case addReg | subReg | shr | subnReg | shl => obtain ⟨r, rfl⟩ := hr; exact .regs _ (setResultFlag_sameRegsBut s _ r)
  case ldI nnn => obtain ⟨w, rfl⟩ := hr; exact .index w (.inl ⟨nnn, rfl⟩)
  case addI x => obtain ⟨w, rfl⟩ := hr; exact .index w (.inr (.inl ⟨x, rfl⟩))
  case ldFont x => obtain ⟨w, rfl⟩ := hr; exact .index w (.inr (.inr ⟨x, rfl⟩))
  case rnd x nn => obtain ⟨b, rfl⟩ := hr; exact .draw _ ⟨x, nn, rfl⟩ (setReg_sameRegsBut s x b)
  case drw x y n =>
    obtain ⟨f, rfl⟩ | ⟨b, p, rfl⟩ := hr
    · exact .fault f
    · exact .grid _ p (.inr ⟨x, y, n, rfl⟩) (setReg_sameRegsBut s vfIdx b)
  case ldKey =>
    obtain ⟨b, rfl⟩ | rfl := hr
    · exact .regs _ (setReg_sameRegsBut s _ b)
    · exact .pc _ (.inr (.inr (.inr rfl)))
  case ldDt x => obtain ⟨b, rfl⟩ := hr; exact .delay b ⟨x, rfl⟩
  case ldSt x => obtain ⟨b, rfl⟩ := hr; exact .sound b ⟨x, rfl⟩
  case ldBcd x =>
    obtain ⟨f, rfl⟩ | ⟨ha, rfl⟩ := hr
    · exact .fault f
    · exact .memory _ rfl ha
  case storeRegs x =>
    obtain ⟨f, rfl⟩ | ⟨ha, rfl⟩ := hr
    · exact .fault f
    · exact .memory _ (length_regsUpTo x s) (by rwa [length_regsUpTo])
  case loadRegs x =>
    obtain ⟨f, rfl⟩ | rfl := hr
    · exact .fault f
    · rw [setRegsFrom_eq]
      exact .regs _ (setRegsFrom_sameRegsBut s x _ (Memory.length_readAll ..))

/-! ### What no instruction writes, and who writes the rest -/

/-- No instruction writes the keypad snapshot, the accumulators or the rate. -/
theorem Change.keeps_scheduler {i : Instr} {s t : State} (h : Change i s t) :
    t.key = s.key ∧ t.tacc = s.tacc ∧ t.iacc = s.iacc ∧ t.rate = s.rate := by
  cases h <;> exact ⟨rfl, rfl, rfl, rfl⟩

/-- An instruction takes a fault and changes nothing else, or leaves the latch as it was (R277). -/
theorem Change.fault_cases {i : Instr} {s t : State} (h : Change i s t) : (∃ f, t = takeFault f s) ∨ t.fault = s.fault := by
  cases h
  case fault f => exact .inl ⟨f, rfl⟩
  all_goals exact .inr rfl

/-- Settles O13: a fault is only latched, and no instruction's change touches these fields. -/
theorem stepLeavesKeysAndSchedulerAlone : Obligations.StepLeavesKeysAndSchedulerAlone := by
  intro s t h
  obtain ⟨-, ⟨-, rfl⟩ | ⟨-, op, -, ⟨-, rfl⟩ | ⟨i, -, hi⟩⟩⟩ := step_cases s t h
  · exact ⟨rfl, rfl, rfl, rfl⟩
  · exact ⟨rfl, rfl, rfl, rfl⟩
  · exact (exec_change hi).keeps_scheduler

/-- Settles O14: of the changes only the pop and the push touch the stack. -/
theorem onlyCallAndReturnTouchTheStack : Obligations.OnlyCallAndReturnTouchTheStack := by
  intro i s t h hret hcall
  cases exec_change h
  case pop hi _ => exact absurd hi hret
  case push nnn hi _ => exact absurd hi (hcall nnn)
  all_goals exact ⟨rfl, rfl⟩

/-- Settles O15: a change that writes registers writes none but those listed. -/
theorem registersChangeOnlyWhereNamed : Obligations.RegistersChangeOnlyWhereNamed := by
  intro i s t h
  cases exec_change h
  case regs hv => exact hv
  case draw hv => exact hv
  case grid hv => exact hv
  all_goals exact fun _ _ => rfl

/-- Settles O16: the one change that writes memory writes the bytes it stores. -/
theorem memoryChangesOnlyWhereStored : Obligations.MemoryChangesOnlyWhereStored := by
  intro i s t h
  cases exec_change h
  case memory bs hn _ =>
    intro b hb
    rw [setMem_mem, Memory.read_writeAll, hn, if_neg hb]
  all_goals exact fun _ _ => rfl

/-- `Cxnn` draws one random byte and no other instruction draws one. -/
theorem exec_draws {i : Instr} {s t : State} (h : exec i s = .next t) :
    ((∃ x nn, i = .rnd x nn) ∧ t.draws = s.draws + 1) ∨ ((∀ x nn, i ≠ .rnd x nn) ∧ t.draws = s.draws) := by
  by_cases hi : ∃ x nn, i = .rnd x nn
  · obtain ⟨x, nn, rfl⟩ := hi
    obtain ⟨b, rfl⟩ := exec_cases _ s t h
    exact .inl ⟨⟨x, nn, rfl⟩, rfl⟩
  · refine .inr ⟨fun x nn e => hi ⟨x, nn, e⟩, ?_⟩
    cases exec_change h
    case draw hd _ => exact absurd hd hi
    all_goals rfl

/-- Settles O17: each change that touches one of these fields names its instructions. -/
theorem specialRegistersHaveTheirOwnWriters : Obligations.SpecialRegistersHaveTheirOwnWriters := by
  intro i s t h
  have hdraws := exec_draws h
  cases exec_change h
  case index hi => exact ⟨.inr hi, .inl rfl, .inl rfl, .inl rfl, hdraws⟩
  case delay hi => exact ⟨.inl rfl, .inr hi, .inl rfl, .inl rfl, hdraws⟩
  case sound hi => exact ⟨.inl rfl, .inl rfl, .inr hi, .inl rfl, hdraws⟩
  case grid hi _ => exact ⟨.inl rfl, .inl rfl, .inl rfl, .inr hi, hdraws⟩
  all_goals exact ⟨.inl rfl, .inl rfl, .inl rfl, .inl rfl, hdraws⟩

/-- Settles O11: a step takes its fault at the fetch, or after the advance at the decode or in an instruction, which then
changes nothing else. -/
theorem faultsArePrecise : Obligations.FaultsArePrecise := by
  intro s t f h hf
  obtain ⟨hrun, ⟨hpc, rfl⟩ | ⟨hpc, op, -, ⟨-, rfl⟩ | ⟨i, -, hi⟩⟩⟩ := step_cases s t h
  · obtain rfl := Option.some.inj hf
    exact .inl ⟨hpc, rfl⟩
  · obtain rfl := Option.some.inj hf
    exact .inr ⟨hpc, rfl⟩
  · obtain ⟨g, rfl⟩ | hsame := (exec_change hi).fault_cases
    · obtain rfl := Option.some.inj hf
      exact .inr ⟨hpc, rfl⟩
    · rw [hsame, advancePc_fault, hrun] at hf
      cases hf

end Sys2Proof.Machine
end

section
/-! PROOFS about the step (50_cycle_and_scheduler.md R230 to R234, R278), and that no instruction reads the accumulators, the
rate or the sound timer. -/

namespace Sys2Proof.Machine

/-- Settles O6: the decoded instruction runs after the advance. -/
theorem stepRunsTheDecodedInstruction : Obligations.StepRunsTheDecodedInstruction :=
  step_of_decode

/-- Settles O8: the fetch faults before the advance. -/
theorem fetchPastMemoryFaults : Obligations.FetchPastMemoryFaults := by
  intro s hrun hpc
  exact step_of_fetch_error s _ hrun (fetch_of_gt s hpc)

/-- Settles O9: the fetch fault is a next state, and whatever word is fetched, decode and execute answer one. -/
theorem runningCoreAlwaysSteps : Obligations.RunningCoreAlwaysSteps := by
  intro s hrun
  obtain ⟨-, hf⟩ | ⟨-, hf⟩ := fetch_cases s
  · rw [step_of_fetch_ok s _ hrun hf]
    exact runWord_is_next _ _
  · exact ⟨_, step_of_fetch_error s _ hrun hf⟩

/-- A run whose first step answers a next state goes on from there. -/
theorem run_succ_of_next (M : Host.Core) {s t : M.State} (k : Nat) (h : M.step s = .next t) :
    M.run (k + 1) s = M.run k t := by
  rw [Host.Core.run, h]

/-- A run stops at its first step when that answers a fault. -/
theorem run_succ_of_fault (M : Host.Core) {s : M.State} {f : M.Fault} (k : Nat) (h : M.step s = .fault f) :
    M.run (k + 1) s = .fault f := by
  rw [Host.Core.run, h]

/-- Settles O10: the first of the steps already answers the latched fault. -/
theorem faultedCoreHasNoStep : Obligations.FaultedCoreHasNoStep :=
  fun s f k h => run_succ_of_fault core k (step_of_faulted s f h)

theorem exec_ldKey_of_some (x : RegIdx) {s : State} {k : Fin 16} (h : lowestKey s = some k) :
    exec (.ldKey x) s = .next (s.setReg x (BitVec.ofNat 8 k.val)) := by
  change execLdKey x s = _
  rw [execLdKey, h]

theorem exec_ldKey_of_none (x : RegIdx) {s : State} (h : lowestKey s = none) :
    exec (.ldKey x) s = .next (s.setPc (s.pc - 2)) := by
  change execLdKey x s = _
  rw [execLdKey, h]

/-! ### What no instruction reads -/

/-- The accumulators, the rate and the sound timer replaced: the four fields that no instruction reads (R27, R34 to R36). -/
def State.withUnread (ta ia : Rat) (r : Nat) (b : Byte) (s : State) : State :=
  { s with tacc := ta, iacc := ia, rate := r, st := b }

section Unread
variable {ta ia : Rat} {r : Nat} {b : Byte}

theorem popStack_withUnread (s : State) :
    popStack (s.withUnread ta ia r b) = (popStack s).map (State.withUnread ta ia r b) := by
  unfold popStack
  by_cases h : 0 < s.sp.val <;> simp [State.withUnread, h] <;> rfl

theorem pushStack_withUnread (a : Word) (s : State) :
    pushStack a (s.withUnread ta ia r b) = (pushStack a s).map (State.withUnread ta ia r b) := by
  unfold pushStack
  by_cases h : s.sp.val < 16 <;> simp [State.withUnread, h] <;> rfl

theorem writeRange_withUnread (a : Nat) (bs : List Byte) (s : State) :
    writeRange a bs (s.withUnread ta ia r b) = (writeRange a bs s).map (State.withUnread ta ia r b) := by
  unfold writeRange
  cases checkRange a bs.length <;> rfl

theorem setRegsFrom_withUnread (bs : List Byte) (k : Nat) (s : State) :
    setRegsFrom k bs (s.withUnread ta ia r b) = (setRegsFrom k bs s).withUnread ta ia r b := by
  induction bs generalizing k s with
  | nil => rfl
  | cons c bs ih => exact ih (k + 1) (s.setReg (BitVec.ofNat 4 k) c)

theorem skipIf_withUnread (c : Bool) (s : State) :
    skipIf c (s.withUnread ta ia r b) = (skipIf c s).withUnread ta ia r b := by
  cases c <;> rfl

theorem settle_withUnread {s t : State} {res res' : Except Fault State}
    (hres : res' = res.map (State.withUnread ta ia r b)) (h : settle s res = .next t) :
    settle (s.withUnread ta ia r b) res' = .next (t.withUnread ta ia r b) := by
  subst hres
  cases res <;> cases h <;> rfl

/-- An instruction that maps what it looked up to a state, where the look-up sees none of the four fields. -/
theorem settle_map_withUnread {α : Type} {s t : State} {res : Except Fault α} {g g' : α → State}
    (hg : ∀ a, g' a = (g a).withUnread ta ia r b) (h : settle s (res.map g) = .next t) :
    settle (s.withUnread ta ia r b) (res.map g') = .next (t.withUnread ta ia r b) := by
  obtain rfl : g' = fun a => (g a).withUnread ta ia r b := funext hg
  refine settle_withUnread ?_ h
  cases res <;> rfl

/-- An instruction other than `Fx18` runs alike whatever the four fields hold, and leaves them. -/
theorem exec_withUnread {i : Instr} {s t : State} (h : exec i s = .next t) (hi : ∀ x, i ≠ .ldSt x) :
    exec i (s.withUnread ta ia r b) = .next (t.withUnread ta ia r b) := by
  cases i
  case ret => exact settle_withUnread (popStack_withUnread s) h
  case call nnn =>
    refine settle_withUnread ?_ h
    change (pushStack s.pc (s.withUnread ta ia r b)).map _ = _
    rw [pushStack_withUnread]
    cases pushStack s.pc s <;> rfl
  case drw x y n => exact settle_map_withUnread (fun _ => rfl) h
  case skp x => exact settle_map_withUnread (fun c => skipIf_withUnread c s) h
  case sknp x => exact settle_map_withUnread (fun c => skipIf_withUnread (!c) s) h
  case ldBcd x => exact settle_withUnread (writeRange_withUnread _ _ s) h
  case storeRegs x => exact settle_withUnread (writeRange_withUnread _ _ s) h
  case loadRegs x => exact settle_map_withUnread (fun bs => setRegsFrom_withUnread bs 0 s) h
  case ldKey x =>
    cases hk : lowestKey s with
    | some k =>
      rw [exec_ldKey_of_some x hk] at h
      cases h
      exact exec_ldKey_of_some x (s := s.withUnread ta ia r b) hk
    | none =>
      rw [exec_ldKey_of_none x hk] at h
      cases h
      exact exec_ldKey_of_none x (s := s.withUnread ta ia r b) hk
  case seImm | sneImm | seReg | sneReg =>
    cases h
    exact congrArg Host.Outcome.next (skipIf_withUnread _ s)
  case ldSt x => exact absurd rfl (hi x)
  all_goals cases h; rfl

end Unread

/-- A step runs alike whatever the four fields hold, and leaves them, but that `Fx18` may have written the sound timer. -/
theorem step_withUnread {s t : State} (ta ia : Rat) (r : Nat) (b : Byte) (h : step s = .next t) :
    ∃ c, step (s.withUnread ta ia r b) = .next (t.withUnread ta ia r c) ∧ (c = t.st ∨ t.st = s.st ∧ c = b) := by
  obtain ⟨hrun, ⟨hpc, rfl⟩ | ⟨hpc, op, hop, ⟨hd, rfl⟩ | ⟨i, hd, hx⟩⟩⟩ := step_cases s t h
  · exact ⟨b, step_of_fetch_error (s.withUnread ta ia r b) _ hrun (fetch_of_gt s hpc), .inr ⟨rfl, rfl⟩⟩
  · refine ⟨b, ?_, .inr ⟨rfl, rfl⟩⟩
    rw [step_of_fetch_ok (s.withUnread ta ia r b) op hrun hop, runWord_error op _ _ hd]
    rfl
  · have hstep : step (s.withUnread ta ia r b) = exec i ((advancePc s).withUnread ta ia r b) := by
      rw [step_of_fetch_ok (s.withUnread ta ia r b) op hrun hop, runWord_ok op i _ hd]
      rfl
    by_cases hi : ∃ x, i = .ldSt x
    · obtain ⟨x, rfl⟩ := hi
      cases hx
      exact ⟨s.reg x, hstep, .inl rfl⟩
    · have hi : ∀ x, i ≠ .ldSt x := fun x e => hi ⟨x, e⟩
      refine ⟨b, hstep.trans (exec_withUnread hx hi), .inr ⟨?_, rfl⟩⟩
      obtain ⟨-, -, hst, -⟩ := specialRegistersHaveTheirOwnWriters i _ t hx
      exact hst.resolve_right fun ⟨x, e⟩ => hi x e

/-- Settles O18: the sound timer is left as it is, so its value after the step is the step's own. -/
theorem instructionsCannotSeeTheScheduler : Obligations.InstructionsCannotSeeTheScheduler := by
  intro s t ta ia r h
  obtain ⟨c, hc, rfl | ⟨hst, rfl⟩⟩ := step_withUnread ta ia r s.st h
  · exact hc
  · exact hc.trans (by rw [State.withUnread, ← hst])

/-- Settles O19: the accumulators and the rate are left as they are, and no step writes them. -/
theorem soundTimerIsNeverRead : Obligations.SoundTimerIsNeverRead := by
  intro s t b h
  obtain ⟨-, hta, hia, hr⟩ := stepLeavesKeysAndSchedulerAlone s t h
  obtain ⟨c, hc, -⟩ := step_withUnread s.tacc s.iacc s.rate b h
  exact ⟨c, hc.trans (by rw [State.withUnread, ← hta, ← hia, ← hr])⟩

end Sys2Proof.Machine
end

section
/-! PROOFS about the timer drain loop (50_cycle_and_scheduler.md R242, R244): the closed form, and that a split of the time
does not show in it. -/

namespace Sys2Proof.Machine

/-- The number of timer decrements that are due is the loop's own count (R242). -/
theorem floor_periods_le {q : Rat} (hq : 0 ≤ q) : (⌊60 * q⌋₊ : Rat) / 60 ≤ q := by
  have := Nat.floor_le (show (0 : Rat) ≤ 60 * q by linarith)
  linarith

theorem lt_floor_periods_succ (q : Rat) : q - (⌊60 * q⌋₊ : Rat) / 60 < 1 / 60 := by
  have := Nat.lt_floor_add_one (60 * q)
  linarith

/-- Settles O53: the loop runs through iterations that are all due, and the floor leaves less than one period. -/
theorem timerDrainClosedForm : Obligations.TimerDrainClosedForm := by
  intro elapsed s hs he nt t
  have hq : 0 ≤ s.tacc + elapsed := add_nonneg hs he
  have hle : (nt : Rat) / 60 ≤ s.tacc + elapsed := floor_periods_le hq
  obtain ⟨hdt, hst, hta, hframe⟩ := timerLoop_due nt (s.setTacc (s.tacc + elapsed)) hle
  have hta : t.tacc = s.tacc + elapsed - nt / 60 := hta
  refine ⟨hdt, hst, hta, ?_, ?_, congrArg (fun u : State => u.setTacc s.tacc) hframe⟩
  · rw [hta]
    exact sub_nonneg.2 hle
  · rw [hta]
    exact lt_floor_periods_succ _

/-- Two states that differ from one state in the timers and their accumulator only are equal when those agree. -/
theorem eq_of_timers_eq {s t u : State} (ht : { t with dt := s.dt, st := s.st, tacc := s.tacc } = s)
    (hu : { u with dt := s.dt, st := s.st, tacc := s.tacc } = s) (hdt : t.dt = u.dt) (hst : t.st = u.st)
    (hta : t.tacc = u.tacc) : t = u := by
  have h := congrArg (fun w : State => { w with dt := u.dt, st := u.st, tacc := u.tacc }) (ht.trans hu.symm)
  calc t = { t with dt := u.dt, st := u.st, tacc := u.tacc } := by rw [← hdt, ← hst, ← hta]
    _ = u := h

theorem timerLoop_frame (k : Nat) (s : State) :
    { timerLoop k s with dt := s.dt, st := s.st, tacc := s.tacc } = s := by
  induction k generalizing s with
  | zero => rfl
  | succ k ih =>
    rw [timerLoop]
    split
    · exact congrArg (fun t : State => { t with dt := s.dt, st := s.st, tacc := s.tacc }) (ih (timerIteration s))
    · rfl

/-- The timer decay, whatever the time, is one update of the timers and their accumulator. -/
theorem timerDrain_eq (elapsed : Rat) (s : State) : timerDrain elapsed s =
    { s with dt := (timerDrain elapsed s).dt, st := (timerDrain elapsed s).st, tacc := (timerDrain elapsed s).tacc } :=
  eq_of_timers_eq (s := s)
    (congrArg (fun t : State => t.setTacc s.tacc) (timerLoop_frame _ (s.setTacc (s.tacc + elapsed)))) rfl rfl rfl rfl

/-- The decrements of the two parts of a split time are those of the whole: what the first part leaves is less by whole
periods. -/
theorem floor_periods_split {q e : Rat} (he : 0 ≤ e) :
    ⌊60 * q⌋₊ + ⌊60 * (q - (⌊60 * q⌋₊ : Rat) / 60 + e)⌋₊ = ⌊60 * (q + e)⌋₊ := by
  have hle : ⌊60 * q⌋₊ ≤ ⌊60 * (q + e)⌋₊ := Nat.floor_le_floor (by linarith)
  have hsub : 60 * (q - (⌊60 * q⌋₊ : Rat) / 60 + e) = 60 * (q + e) - (⌊60 * q⌋₊ : Rat) := by ring
  rw [hsub, Nat.floor_sub_natCast, Nat.add_sub_cancel' hle]

/-- Settles O54: by the closed form, both sides lower the timers by the same number and leave the same accumulator. -/
theorem timerDecayIgnoresTheSplit : Obligations.TimerDecayIgnoresTheSplit := by
  intro d e s hs hd he
  obtain ⟨hdt1, hst1, hta1, hpos1, -, hf1⟩ := timerDrainClosedForm d s hs hd
  obtain ⟨hdt2, hst2, hta2, -, -, hf2⟩ := timerDrainClosedForm e (timerDrain d s) hpos1 he
  obtain ⟨hdt, hst, hta, -, -, hf⟩ := timerDrainClosedForm (d + e) s hs (add_nonneg hd he)
  have hsplit := floor_periods_split (q := s.tacc + d) he
  rw [← hta1, add_assoc s.tacc] at hsplit
  refine eq_of_timers_eq ?_ hf (BitVec.eq_of_toNat_eq ?_) (BitVec.eq_of_toNat_eq ?_) ?_
  · exact (congrArg (fun u : State => { u with dt := s.dt, st := s.st, tacc := s.tacc }) hf2).trans hf1
  · rw [hdt2, hdt1, hdt, ← hsplit, Nat.sub_add_eq]
  · rw [hst2, hst1, hst, ← hsplit, Nat.sub_add_eq]
  · rw [hta2, hta, ← hsplit, Nat.cast_add, hta1]
    ring

end Sys2Proof.Machine
end

section
/-! PROOFS about the invariant (10_state.md R44): reset meets it, every change an instruction can make keeps it, and so do a
step, both drain loops and every host operation; hence every reachable state meets it. -/

namespace Sys2Proof.Machine

theorem State.Inv.setPc {s : State} {w : Word} (h : s.Inv) (hw : w.toNat ≤ 0x10FE) : (s.setPc w).Inv := by
  obtain ⟨hmem, -, hrest⟩ := h
  exact ⟨hmem, hw, hrest⟩

theorem State.Inv.setMem {s : State} {m : Memory} (h : s.Inv) (hm : Memory.wf m) : (s.setMem m).Inv :=
  ⟨hm, h.2⟩

/-- Settles O20: the reset state has every field in its bounds, and with another FONT only memory differs, which is
canonical. -/
theorem resetMeetsTheInvariant : Obligations.ResetMeetsTheInvariant := by
  have hreset : State.reset.Inv :=
    ⟨Memory.wf_reset, by decide, fun _ hk => absurd hk (Nat.not_lt_zero _), by decide, by decide +kernel, le_refl (0 : Rat)⟩
  exact ⟨hreset, fun font => hreset.setMem (Memory.wf_ofFont font)⟩

/-- A push of an address between 2 and 4096 keeps the live return addresses there. -/
theorem State.Inv.push {s : State} {a : Word} (h : s.Inv) (hsp : s.sp.val < 16) (hlo : 2 ≤ a.toNat)
    (hhi : a.toNat ≤ 4096) : (s.setStack (s.stk.set s.sp.val a hsp) ⟨s.sp.val + 1, Nat.succ_lt_succ hsp⟩).Inv := by
  obtain ⟨hmem, hpc, hstk, hrest⟩ := h
  refine ⟨hmem, hpc, fun k hk => ?_, hrest⟩
  simp only [setStack_stk, setStack_sp, Vector.getElem_set] at hk ⊢
  split
  · exact ⟨hlo, hhi⟩
  · exact hstk k (by omega)

/-- A pop drops the newest live entry. -/
theorem State.Inv.pop {s : State} (h : s.Inv) : (s.setStack s.stk ⟨s.sp.val - 1, by omega⟩).Inv := by
  obtain ⟨hmem, hpc, hstk, hrest⟩ := h
  exact ⟨hmem, hpc, fun k hk => hstk k (lt_of_lt_of_le hk (Nat.sub_le _ _)), hrest⟩

/-- Every change keeps the invariant in a state whose pc is that of an instruction inside memory, advanced. -/
theorem Change.keeps_inv {i : Instr} {s t : State} (hc : Change i s t) (hs : s.Inv) (hlo : 2 ≤ s.pc.toNat)
    (hhi : s.pc.toNat ≤ 4096) : t.Inv := by
  cases hc
  case pc w hw =>
    refine hs.setPc ?_
    obtain hw | rfl | rfl | rfl := hw
    · exact hw
    · omega
    · bv_omega
    · bv_omega
  case pop hi hsp =>
    have ⟨_, _, hstk, _⟩ := hs
    obtain ⟨-, hle⟩ := hstk ⟨s.sp.val - 1, by omega⟩ (Nat.sub_lt hsp Nat.one_pos)
    exact hs.pop.setPc (hle.trans (by decide))
  case push nnn hi hsp => exact (hs.push hsp hlo hhi).setPc (addrWord_le nnn)
  case memory bs hn ha => exact hs.setMem (Memory.wf_writeAll _ _ _ ha hs.1)
  all_goals exact hs

/-- Settles O21: the advance of a fetchable pc ends between 2 and 4096, where every change of an instruction keeps the
invariant; a fault latched is no part of it. -/
theorem stepKeepsTheInvariant : Obligations.StepKeepsTheInvariant := by
  intro s t hs h
  obtain ⟨-, ⟨-, rfl⟩ | ⟨hpc, op, -, hx⟩⟩ := step_cases s t h
  · exact hs
  · have hadv := advancePc_toNat s hpc
    have hinv : (advancePc s).Inv := hs.setPc (hadv.le.trans (by omega))
    obtain ⟨-, rfl⟩ | ⟨i, -, hi⟩ := hx
    · exact hinv
    · exact (exec_change hi).keeps_inv hinv (by omega) (by omega)

/-! ### Host operations -/

theorem State.Inv.setIacc {s : State} {q : Rat} (h : s.Inv) (hq : 0 ≤ q) : (s.setIacc q).Inv := by
  obtain ⟨hmem, hpc, hstk, hrate, hta, -⟩ := h
  exact ⟨hmem, hpc, hstk, hrate, hta, hq⟩

theorem State.Inv.setRate {s : State} {r : Nat} (h : s.Inv) (hr : 1 ≤ r ∧ r ≤ 65535) : (s.setRate r).Inv := by
  obtain ⟨hmem, hpc, hstk, -, hrest⟩ := h
  exact ⟨hmem, hpc, hstk, hr, hrest⟩

/-- The timer decay keeps the invariant: it leaves less than one period. -/
theorem State.Inv.timerDrain {s : State} {elapsed : Rat} (h : s.Inv) (he : 0 ≤ elapsed) : (timerDrain elapsed s).Inv := by
  obtain ⟨hmem, hpc, hstk, hrate, ⟨hta, -⟩, hia⟩ := h
  obtain ⟨-, -, -, hlo, hhi, -⟩ := timerDrainClosedForm elapsed s hta he
  rw [timerDrain_eq]
  exact ⟨hmem, hpc, hstk, hrate, ⟨hlo, hhi⟩, hia⟩

/-- The instruction drain loop keeps the invariant: it subtracts a period only where one is due. -/
theorem State.Inv.stepLoop {s : State} (h : s.Inv) (k : Nat) : (stepLoop k s).2.Inv := by
  induction k generalizing s with
  | zero => exact h
  | succ k ih =>
    by_cases hdue : s.iacc ≥ stepPeriod s
    · cases hs : step s with
      | next t =>
        have ht := stepKeepsTheInvariant s t h hs
        cases hf : t.fault with
        | some f => rw [stepLoop_fault k s t f hdue hs hf]; exact ht
        | none =>
          rw [stepLoop_next k s t hdue hs hf]
          obtain ⟨-, -, hia, hr⟩ := stepLeavesKeysAndSchedulerAlone s t hs
          refine ih (ht.setIacc ?_)
          rw [hia, stepPeriod, hr]
          exact sub_nonneg.2 hdue
      | fault f => rw [Machine.stepLoop, if_pos hdue, hs]; exact h
      | refused r => rw [Machine.stepLoop, if_pos hdue, hs]; exact h
    · rw [stepLoop_of_lt (k + 1) s (not_le.1 hdue)]; exact h

/-- Within a `Tick`, after its timer decay and up to `k` of its instructions, the invariant holds (R241, R243). -/
theorem State.Inv.stepLoop_after_decay {s : State} {elapsed : Rat} (h : s.Inv) (he : 0 ≤ elapsed) (k : Nat) :
    (Machine.stepLoop k ((Machine.timerDrain elapsed s).setIacc ((Machine.timerDrain elapsed s).iacc + elapsed))).2.Inv := by
  have ht := h.timerDrain he
  have ⟨_, _, _, _, _, hia⟩ := ht
  exact (ht.setIacc (add_nonneg hia he)).stepLoop k

/-- A `Tick` that is not refused ends in the state of its drain loops. -/
theorem tick_state (elapsed : Rat) (s : State) (he : 0 ≤ elapsed) : (tick elapsed s).2 = (tickBody elapsed s).2 := by
  rw [tick, if_neg (not_lt.2 he)]
  split <;> rename_i hb <;> rw [hb]

/-- An operation that a faulted core does not carry out keeps what it keeps on a running one. -/
theorem State.Inv.whileRunning {s : State} {r : HostReply × State} (h : s.Inv) (hr : r.2.Inv) :
    (whileRunning s r).2.Inv := by
  cases hf : s.fault with
  | none => rwa [whileRunning_of_running s r hf]
  | some f => rwa [whileRunning_of_faulted s r f hf]

/-- Settles O22: operation by operation; a `Tick` by the invariant of its two loops. -/
theorem hostOperationsKeepTheInvariant : Obligations.HostOperationsKeepTheInvariant := by
  intro font op s h
  cases op with
  | reset => exact resetMeetsTheInvariant.2 font
  | loadProgram bytes =>
    refine h.whileRunning ?_
    unfold loadProgram
    split
    · exact h
    · exact h.setMem (Memory.wf_writeAll _ _ _ (by omega) h.1)
  | setKeys keys => exact h.whileRunning h
  | setInstructionRate r =>
    refine h.whileRunning ?_
    unfold setInstructionRate
    split
    · exact h.setRate (by omega)
    · exact h
  | tick elapsed =>
    refine h.whileRunning ?_
    by_cases he : elapsed < 0
    · rw [tick, if_pos he]; exact h
    · rw [tick_state elapsed s (not_lt.1 he)]; exact h.stepLoop_after_decay (not_lt.1 he) _
  | readDisplay => exact h

theorem inv_of_betweenOps {font : Font} {s : State} (h : BetweenOps font s) : s.Inv := by
  induction h with
  | reset => exact resetMeetsTheInvariant.2 font
  | host s op _ ih => exact hostOperationsKeepTheInvariant font op s ih

/-- Settles O23: by induction on how the state is reached. -/
theorem reachableStatesMeetTheInvariant : Obligations.ReachableStatesMeetTheInvariant := by
  intro font s h
  induction h with
  | between s hb => exact inv_of_betweenOps hb
  | inTick s elapsed k hb _ he => exact (inv_of_betweenOps hb).stepLoop_after_decay he k
  | step s t _ hst ih => exact stepKeepsTheInvariant s t ih hst

end Sys2Proof.Machine
end

section
/-! PROOFS about a whole `Tick` (50_cycle_and_scheduler.md R240 to R245, R254): the instruction drain loop is a run of the core
beside the accounting of time, since no step reads or writes `IACC`. -/

namespace Sys2Proof.Machine

/-- A step beside any value of `IACC`. -/
theorem step_setIacc {s t : State} (q : Rat) (h : step s = .next t) : step (s.setIacc q) = .next (t.setIacc q) := by
  obtain ⟨-, hta, -, hr⟩ := stepLeavesKeysAndSchedulerAlone s t h
  have hstep := instructionsCannotSeeTheScheduler s t s.tacc q s.rate h
  exact hstep.trans (by rw [State.setIacc, ← hta, ← hr])

/-- A run that leads to a running core began in one. -/
theorem running_of_run {k : Nat} {s u : State} (h : Host.Core.run core k s = .next u) (hu : u.fault = none) :
    s.fault = none := by
  cases k with
  | zero => cases h; exact hu
  | succ k =>
    cases hf : s.fault with
    | none => rfl
    | some f => rw [run_succ_of_fault core k (step_of_faulted s f hf)] at h; cases h

/-- The first step of a run that leads to a state. -/
theorem step_of_run_succ {k : Nat} {s u : State} (h : Host.Core.run core (k + 1) s = .next u) :
    ∃ t, step s = .next t ∧ Host.Core.run core k t = .next u := by
  cases hf : s.fault with
  | none =>
    obtain ⟨t, ht⟩ := runningCoreAlwaysSteps s hf
    exact ⟨t, ht, (run_succ_of_next core k ht).symm.trans h⟩
  | some f => rw [run_succ_of_fault core k (step_of_faulted s f hf)] at h; cases h

/-- Due instructions that raise no fault: the drain loop follows the run of the core and subtracts their periods. -/
theorem stepLoop_run (k m : Nat) (s u : State) (q : Rat) (hq : (k : Rat) / s.rate ≤ q)
    (h : Host.Core.run core k s = .next u) (hu : u.fault = none) :
    stepLoop (k + m) (s.setIacc q) = stepLoop m (u.setIacc (q - k / s.rate)) ∧ u.rate = s.rate := by
  induction k generalizing s q with
  | zero =>
    cases h
    simp
  | succ k ih =>
    obtain ⟨t, hs, hrun⟩ := step_of_run_succ h
    obtain ⟨-, -, -, hr⟩ := stepLeavesKeysAndSchedulerAlone s t hs
    have hpos : (0 : Rat) ≤ k / s.rate := by positivity
    rw [Nat.cast_succ, add_div] at hq ⊢
    have hdue : (s.setIacc q).iacc ≥ stepPeriod (s.setIacc q) := by
      change 1 / (s.rate : Rat) ≤ q
      linarith
    obtain ⟨hloop, hrate⟩ := ih t (q - 1 / t.rate) (by rw [hr]; linarith) hrun
    refine ⟨?_, hrate.trans hr⟩
    have ht : (t.setIacc q).fault = none := running_of_run (s := t) hrun hu
    rw [Nat.succ_add, stepLoop_next _ _ _ hdue (step_setIacc q hs) ht]
    refine hloop.trans ?_
    rw [hr, sub_sub, add_comm (1 / (s.rate : Rat))]

/-- A `Tick` is its timer decay and then the instruction drain loop, with the counts and times of R243. -/
theorem tickBody_eq (elapsed : Rat) (s : State) : tickBody elapsed s =
    stepLoop ⌊(s.rate : Rat) * (s.iacc + elapsed)⌋₊ ((timerDrain elapsed s).setIacc (s.iacc + elapsed)) := by
  rw [tickBody, stepDrain, timerDrain_eq]

/-- As many periods as are due fit in the time, and less than one is left. -/
theorem floor_steps_le {r : Nat} {q : Rat} (hr : 1 ≤ r) (hq : 0 ≤ q) : (⌊(r : Rat) * q⌋₊ : Rat) / r ≤ q := by
  have hpos : (0 : Rat) < r := Nat.cast_pos.2 hr
  rw [div_le_iff₀ hpos, mul_comm q]
  exact Nat.floor_le (mul_nonneg hpos.le hq)

theorem lt_floor_steps_succ {r : Nat} (q : Rat) (hr : 1 ≤ r) : q - (⌊(r : Rat) * q⌋₊ : Rat) / r < 1 / r := by
  have hpos : (0 : Rat) < r := Nat.cast_pos.2 hr
  rw [sub_lt_iff_lt_add, ← add_div, lt_div_iff₀ hpos, add_comm, mul_comm q]
  exact Nat.lt_floor_add_one _

/-- A `Tick` after the first `k` of its steps, none of which raised a fault: `m` steps are left. -/
theorem tickBody_run {elapsed : Rat} {s u : State} (k m : Nat) (hkm : ⌊(s.rate : Rat) * (s.iacc + elapsed)⌋₊ = k + m)
    (hq : (k : Rat) / s.rate ≤ s.iacc + elapsed) (h : Host.Core.run core k (timerDrain elapsed s) = .next u)
    (hu : u.fault = none) :
    tickBody elapsed s = stepLoop m (u.setIacc (s.iacc + elapsed - k / s.rate)) ∧ u.rate = s.rate := by
  have hr : (timerDrain elapsed s).rate = s.rate := by rw [timerDrain_eq]
  rw [tickBody_eq, hkm]
  rw [← hr] at hq ⊢
  exact stepLoop_run k m _ u _ hq h hu

theorem tick_of_tickBody_drained {elapsed : Rat} {s t : State} (he : 0 ≤ elapsed)
    (h : tickBody elapsed s = (.drained, t)) : tick elapsed s = (.success, t) := by
  rw [tick, if_neg (not_lt.2 he), h]

theorem tick_of_tickBody_faulted {elapsed : Rat} {s t : State} {f : Fault} (he : 0 ≤ elapsed)
    (h : tickBody elapsed s = (.faulted f, t)) : tick elapsed s = (.fault f, t) := by
  rw [tick, if_neg (not_lt.2 he), h]

theorem hostStep_tick_of_running (font : Font) (elapsed : Rat) {s : State} (h : s.fault = none) :
    hostStep font (.tick elapsed) s = tick elapsed s :=
  whileRunning_of_running s _ h

/-- Settles O55: the drain loop runs exactly the due steps, which is the bound it is given. -/
theorem tickDecaysTimersThenRunsTheDueSteps : Obligations.TickDecaysTimersThenRunsTheDueSteps := by
  constructor
  · intro font elapsed s u hia he hrate hrun ni ia hk hu
    have hle : (ni : Rat) / s.rate ≤ s.iacc + elapsed := floor_steps_le hrate (add_nonneg hia he)
    obtain ⟨hbody, -⟩ := tickBody_run ni 0 rfl hle hk hu
    refine ⟨?_, sub_nonneg.2 hle, lt_floor_steps_succ _ hrate⟩
    rw [hostStep_tick_of_running font elapsed hrun]
    exact tick_of_tickBody_drained he hbody
  · intro font elapsed s hrun he
    rw [hostStep_tick_of_running font elapsed hrun, tick, if_pos he]

/-- A `Tick` of a running core that reports a fault has latched it. -/
theorem tick_reports_latched {elapsed : Rat} {s t : State} {f : Fault} (hrun : s.fault = none)
    (h : tick elapsed s = (.fault f, t)) : t.fault = some f := by
  by_cases he : elapsed < 0
  · rw [tick, if_pos he] at h
    cases h
  · have hdrain : (timerDrain elapsed s).fault = none := by rw [timerDrain_eq]; exact hrun
    have hend := stepLoop_cases ⌊(s.rate : Rat) * (s.iacc + elapsed)⌋₊
      ((timerDrain elapsed s).setIacc (s.iacc + elapsed)) hdrain
    rw [← tickBody_eq] at hend
    obtain ⟨hend, -⟩ | ⟨g, hend, hlatch⟩ := hend
    · rw [tick_of_tickBody_drained (not_lt.1 he) (Prod.ext hend rfl)] at h
      cases h
    · rw [tick_of_tickBody_faulted (not_lt.1 he) (Prod.ext hend rfl)] at h
      cases h
      exact hlatch

/-- A faulted core only reports its fault, but to `Reset` and `ReadDisplay` (R254). -/
theorem hostStep_of_faulted (font : Font) {op : HostOp} {s : State} {f : Fault} (h : s.fault = some f)
    (hreset : op ≠ .reset) (hread : op ≠ .readDisplay) : hostStep font op s = (.fault f, s) := by
  cases op
  case reset => exact absurd rfl hreset
  case readDisplay => exact absurd rfl hread
  all_goals exact whileRunning_of_faulted s _ f h

/-- Settles O56: the drain loop follows the run for `k` steps and then meets the fault, which is what it reports and leaves
latched. -/
theorem faultStopsTheCoreUntilReset : Obligations.FaultStopsTheCoreUntilReset := by
  constructor
  · intro font elapsed s u v f k hia he hrate hrun hlt hk hu hstep hv
    obtain ⟨m, hm⟩ := Nat.exists_eq_add_of_lt hlt
    have hfit : (k : Rat) / s.rate + 1 / s.rate ≤ s.iacc + elapsed := by
      have hle := floor_steps_le hrate (add_nonneg hia he)
      have hm0 : (0 : Rat) ≤ m / s.rate := by positivity
      rw [hm, Nat.cast_succ, Nat.cast_add, add_div, add_div] at hle
      linarith
    have h1 : (0 : Rat) ≤ 1 / s.rate := by positivity
    obtain ⟨hbody, hr⟩ := tickBody_run k (m + 1) hm (by linarith) hk hu
    have hdue : s.iacc + elapsed - k / s.rate ≥ stepPeriod (u.setIacc (s.iacc + elapsed - k / s.rate)) := by
      rw [stepPeriod, setIacc_rate, hr]
      linarith
    rw [stepLoop_fault m _ _ f hdue (step_setIacc _ hstep) hv] at hbody
    rw [hostStep_tick_of_running font elapsed hrun]
    exact tick_of_tickBody_faulted he hbody
  · intro font elapsed s t f h
    have hlatch : t.fault = some f := by
      cases hf : s.fault with
      | none => exact tick_reports_latched hf ((hostStep_tick_of_running font elapsed hf).symm.trans h)
      | some g =>
        rw [hostStep_of_faulted font hf HostOp.noConfusion HostOp.noConfusion] at h
        cases h
        exact hf
    exact ⟨hlatch, fun op => hostStep_of_faulted font hlatch⟩

end Sys2Proof.Machine
end

section
/-! PROOFS about memory (20_memory.md), the reset and the other host operations (50_cycle_and_scheduler.md R246 to R250). -/

namespace Sys2Proof.Machine

/-- Settles O25: both primitives by their bound, and the write by what is read after it. -/
theorem memoryPrimitivesReadBackTheWrite : Obligations.MemoryPrimitivesReadBackTheWrite := by
  refine ⟨memRead_of_gt, memWrite_of_gt, memRead_of_le, fun a b s ha => ⟨_, memWrite_of_le a b s ha, ?_, ?_, rfl⟩⟩
  · rw [memRead_of_le a _ ha, setMem_mem, Memory.read_write, if_pos rfl]
  · intro c hc
    simp only [memRead, setMem_mem, Memory.read_write, if_neg hc]

/-- In a canonical memory an address that exists is listed exactly with the byte it reads as, where that is not what an
unlisted address reads as. -/
theorem Memory.mem_iff_of_wf {m : Memory} (h : Memory.wf m) (c : Host.Cell) :
    c ∈ m ↔ Memory.read m c.1 = c.2 ∧ c.2 ≠ Memory.unlisted c.1 := by
  induction m with
  | nil => simp [eq_comm]
  | cons d m ih =>
    obtain ⟨hsorted, hcells⟩ := h
    rw [List.pairwise_cons] at hsorted
    have ih := ih ⟨hsorted.2, fun e he => hcells e (List.mem_cons_of_mem d he)⟩
    rw [List.mem_cons, Memory.read_cons]
    by_cases hd : d.1 = c.1
    · have hnot : c ∉ m := fun hc => (hsorted.1 c hc).ne hd
      have hlisted := (hcells d List.mem_cons_self).2
      rw [if_pos hd, or_iff_left hnot]
      constructor
      · rintro rfl
        exact ⟨rfl, hlisted⟩
      · rintro ⟨hb, -⟩
        exact Prod.ext hd.symm hb.symm
    · have hne : c ≠ d := fun e => hd (congrArg Prod.fst e.symm)
      rw [if_neg hd, or_iff_right hne, ih]

/-- Settles O26: both lists are strictly rising and hold the same cells, those that the common contents give. -/
theorem canonicalMemoriesThatReadAlikeAreEqual : Obligations.CanonicalMemoriesThatReadAlikeAreEqual := by
  intro m n hm hn hread
  have hmem (c : Host.Cell) : c ∈ m ↔ c ∈ n := by
    rw [Memory.mem_iff_of_wf hm, Memory.mem_iff_of_wf hn, hread]
  have : Std.Irrefl (fun c d : Host.Cell => c.1 < d.1) := ⟨fun c => lt_irrefl c.1⟩
  have : Std.Antisymm (fun c d : Host.Cell => c.1 < d.1) := ⟨fun _ _ h h' => absurd h' h.asymm⟩
  exact hm.1.eq_of_mem_iff hn.1 hmem

/-- Settles O24: all but memory is `State.reset`'s, and memory reads as the FONT given. -/
theorem resetLeavesTheStatedValues : Obligations.ResetLeavesTheStatedValues := by
  intro font s
  refine ⟨_, rfl, ?_, rfl, rfl, rfl, ?_, rfl, rfl, ?_, ?_, rfl, ?_, Pixels.isOn_blank, rfl, rfl, rfl, ?_⟩
  · intro r; exact Vector.getElem_replicate ..
  · intro k; exact Vector.getElem_replicate ..
  · intro a ha
    exact (Memory.read_ofFont font a).trans (dif_neg (not_lt.2 ha))
  · intro k
    exact (Memory.read_ofFont font k).trans (dif_pos k.isLt)
  · intro k; exact Vector.getElem_replicate ..
  · rintro rfl
    rw [State.resetWith_default]
    rfl

/-- A run of writes changes memory only, and of that only the bytes written. -/
theorem setMem_writeAll_onlyMemory (s : State) (a : Nat) (bs : List Byte) :
    OnlyMemory a bs.length s (s.setMem (Memory.writeAll s.mem a bs)) := by
  refine ⟨rfl, fun b hb => ?_⟩
  rw [setMem_mem, Memory.read_writeAll, if_neg hb]

/-- What a run of writes leaves at its `k`-th address. -/
theorem Memory.read_writeAll_add (m : Memory) (a k : Nat) (bs : List Byte) (hk : k < bs.length) :
    Memory.read (Memory.writeAll m a bs) (a + k) = bs.getD k 0 := by
  rw [Memory.read_writeAll, if_pos (by omega), Nat.add_sub_cancel_left]

/-- Settles O57: the copy is a run of writes inside memory. -/
theorem loadProgramCopiesTheBytes : Obligations.LoadProgramCopiesTheBytes := by
  intro font bytes s hrun
  have hstep : hostStep font (.loadProgram bytes) s = loadProgram bytes s := whileRunning_of_running s _ hrun
  rw [hstep, loadProgram]
  exact ⟨fun hlen => ⟨_, if_neg (not_lt.2 hlen), fun k hk => Memory.read_writeAll_add s.mem 0x200 k bytes hk,
    setMem_writeAll_onlyMemory s 0x200 bytes⟩, fun hlen => if_pos hlen⟩

/-- Settles O58: a rate request is accepted exactly when it is an integer in range. -/
theorem settingKeysAndRate : Obligations.SettingKeysAndRate := by
  intro font s hrun
  have hrate (r : Rat) : hostStep font (.setInstructionRate r) s = setInstructionRate r s :=
    whileRunning_of_running s _ hrun
  refine ⟨fun keys => whileRunning_of_running s _ hrun, fun n h1 h2 => ?_, fun r hr => ?_⟩
  · rw [hrate, setInstructionRate, if_pos ⟨Rat.den_natCast n, by simpa using h1, by simpa using h2⟩, Rat.num_natCast]
    rfl
  · rw [hrate, setInstructionRate, if_neg]
    rintro ⟨hden, h1, h2⟩
    refine hr r.num.toNat (by omega) (by omega) ?_
    calc r = (r.num : Rat) := (Rat.coe_int_num_of_den_eq_one hden).symm
      _ = (r.num.toNat : Rat) := by exact_mod_cast (Int.toNat_of_nonneg (by omega)).symm

end Sys2Proof.Machine
end

section
/-! PROOFS of the control transfer family, continued (40_flow.md; 44_keypad_timers.md R211 to R213): return, call, and the six
skips. -/

namespace Sys2Proof.Machine

theorem exec_ret_of_pos (s : State) (h : 0 < s.sp.val) : exec .ret s =
    .next ((s.setStack s.stk ⟨s.sp.val - 1, by omega⟩).setPc (s.stk[s.sp.val - 1]'(by omega))) :=
  congrArg (settle s) (popStack_of_pos s h)

theorem exec_ret_of_empty (s : State) (h : s.sp.val = 0) : exec .ret s = .next (takeFault .stackUnderflow s) :=
  congrArg (settle s) (popStack_of_empty s h)

theorem exec_call (nnn : Addr) (s : State) :
    exec (.call nnn) s = settle s ((pushStack s.pc s).map (·.setPc (addrWord nnn))) := rfl

theorem exec_call_of_lt (nnn : Addr) (s : State) (h : s.sp.val < 16) : exec (.call nnn) s =
    .next ((s.setStack (s.stk.set s.sp.val s.pc h) ⟨s.sp.val + 1, Nat.succ_lt_succ h⟩).setPc (addrWord nnn)) := by
  rw [exec_call, pushStack_of_lt s.pc s h]; rfl

theorem exec_call_of_full (nnn : Addr) (s : State) (h : s.sp.val = 16) :
    exec (.call nnn) s = .next (takeFault .stackOverflow s) := by
  rw [exec_call, pushStack_of_full s.pc s h]; rfl

/-- Settles O27: the pop finds the newest entry just below the count. -/
theorem returnPopsTheNewestEntry : Obligations.ReturnPopsTheNewestEntry := by
  refine ⟨rfl, fun s => ⟨fun hpos => ⟨_, exec_ret_of_pos s hpos, ?_, fun k hk => ?_, rfl⟩, exec_ret_of_empty s⟩⟩
  · exact Nat.sub_add_cancel hpos
  · simp only [setPc_pc, ← hk, Nat.add_sub_cancel]

/-- Settles O28: the push stores the pc and counts it, and the jump follows. -/
theorem callPushesTheAdvancedPc : Obligations.CallPushesTheAdvancedPc := by
  intro nnn s
  exact ⟨fun h => ⟨_, exec_call_of_lt nnn s h, rfl, rfl, addrWord_toNat nnn, rfl⟩, exec_call_of_full nnn s⟩

/-- Settles O29: the return pops the entry that the call has just pushed. -/
theorem callThenReturnResumesAfterTheCall : Obligations.CallThenReturnResumesAfterTheCall := by
  intro nnn s h
  refine ⟨_, exec_call_of_lt nnn s h, _, exec_ret_of_pos _ (Nat.succ_pos s.sp.val), ?_, rfl⟩
  exact Vector.getElem_set_self ..

theorem exec_seReg (x y : RegIdx) (s : State) : exec (.seReg x y) s = .next (skipIf (s.reg x == s.reg y) s) := rfl

theorem exec_sneReg (x y : RegIdx) (s : State) : exec (.sneReg x y) s = .next (skipIf (s.reg x != s.reg y) s) := rfl

/-- Settles O32: both skips are the one skip mechanism, under a condition and under its negation. -/
theorem skipsComparingRegisters : Obligations.SkipsComparingRegisters := by
  intro x y s
  have hse (y : RegIdx) :
      exec (.seReg x y) s = .next { s with pc := if s.reg x = s.reg y then s.pc + 2 else s.pc } := by
    rw [exec_seReg, skipIf_eq_setPc]
    simp only [State.setPc, beq_iff_eq]
  have hsne (y : RegIdx) :
      exec (.sneReg x y) s = .next { s with pc := if s.reg x = s.reg y then s.pc else s.pc + 2 } := by
    rw [exec_sneReg, skipIf_eq_setPc]
    simp only [State.setPc, bne_iff_ne, ne_eq, ite_not]
  exact ⟨hse y, hsne y, by rw [hse, if_pos rfl], by rw [hsne, if_pos rfl]⟩

theorem exec_skp (x : RegIdx) (s : State) :
    exec (.skp x) s = settle s ((keyAt (s.reg x) s).map (fun pressed => skipIf pressed s)) := rfl

theorem exec_sknp (x : RegIdx) (s : State) :
    exec (.sknp x) s = settle s ((keyAt (s.reg x) s).map (fun pressed => skipIf (!pressed) s)) := rfl

theorem exec_skp_of_lt (x : RegIdx) (s : State) (h : (s.reg x).toNat < 16) :
    exec (.skp x) s = .next (skipIf s.key[(s.reg x).toNat] s) := by
  rw [exec_skp, keyAt_of_lt _ s h]; rfl

theorem exec_sknp_of_lt (x : RegIdx) (s : State) (h : (s.reg x).toNat < 16) :
    exec (.sknp x) s = .next (skipIf (!s.key[(s.reg x).toNat]) s) := by
  rw [exec_sknp, keyAt_of_lt _ s h]; rfl

theorem exec_skp_of_ge (x : RegIdx) (s : State) (h : 16 ≤ (s.reg x).toNat) :
    exec (.skp x) s = .next (takeFault (.outOfRange .keypad (s.reg x).toNat) s) := by
  rw [exec_skp, keyAt_of_ge _ s h]; rfl

theorem exec_sknp_of_ge (x : RegIdx) (s : State) (h : 16 ≤ (s.reg x).toNat) :
    exec (.sknp x) s = .next (takeFault (.outOfRange .keypad (s.reg x).toNat) s) := by
  rw [exec_sknp, keyAt_of_ge _ s h]; rfl

/-- Settles O50: both are the one skip mechanism under the key's level, once the index is in range. -/
theorem keySkipsTestTheLevel : Obligations.KeySkipsTestTheLevel := by
  intro x s
  refine ⟨fun h => ⟨?_, ?_⟩, fun h => ⟨exec_skp_of_ge x s h, exec_sknp_of_ge x s h⟩⟩
  · rw [exec_skp_of_lt x s h, skipIf_eq_setPc]
    rfl
  · rw [exec_sknp_of_lt x s h, skipIf_eq_setPc]
    simp only [State.setPc, Bool.not_eq_true', ← Bool.not_eq_true, ite_not]

/-- The condition of one of the six skips holds (R125 to R128, R212, R213). -/
def SkipTaken (i : Instr) (s : State) : Prop :=
  (∃ x nn, i = .seImm x nn ∧ s.reg x = nn) ∨ (∃ x nn, i = .sneImm x nn ∧ s.reg x ≠ nn) ∨
  (∃ x y, i = .seReg x y ∧ s.reg x = s.reg y) ∨ (∃ x y, i = .sneReg x y ∧ s.reg x ≠ s.reg y) ∨
  (∃ x, i = .skp x ∧ ∃ h : (s.reg x).toNat < 16, s.key[(s.reg x).toNat] = true) ∨
  (∃ x, i = .sknp x ∧ ∃ h : (s.reg x).toNat < 16, s.key[(s.reg x).toNat] = false)

/-- A skip that is taken is one more advance of the pc (R129). -/
theorem exec_of_skipTaken {i : Instr} {s : State} (h : SkipTaken i s) : exec i s = .next (s.setPc (s.pc + 2)) := by
  obtain ⟨x, nn, rfl, hc⟩ | ⟨x, nn, rfl, hc⟩ | ⟨x, y, rfl, hc⟩ | ⟨x, y, rfl, hc⟩ | ⟨x, rfl, hx, hc⟩ | ⟨x, rfl, hx, hc⟩ := h
  · rw [exec_seImm, beq_iff_eq.2 hc, skipIf_eq_setPc, if_pos rfl]
  · rw [exec_sneImm, bne_iff_ne.2 hc, skipIf_eq_setPc, if_pos rfl]
  · rw [exec_seReg, beq_iff_eq.2 hc, skipIf_eq_setPc, if_pos rfl]
  · rw [exec_sneReg, bne_iff_ne.2 hc, skipIf_eq_setPc, if_pos rfl]
  · rw [exec_skp_of_lt x s hx, hc, skipIf_eq_setPc, if_pos rfl]
  · rw [exec_sknp_of_lt x s hx, hc, skipIf_eq_setPc, Bool.not_false, if_pos rfl]

/-- Settles O33: the taken skip is a second advance, and the next step fetches where that leaves the pc. -/
theorem skippedWordIsNeverDecoded : Obligations.SkippedWordIsNeverDecoded := by
  intro s i j hrun hpc hi hskip hj
  have hskip : SkipTaken i (advancePc s) := hskip
  have hpc4 : (s.pc + 4).toNat = s.pc.toNat + 4 := by bv_omega
  constructor
  · rw [step_of_decode s i hrun (by omega) hi, exec_of_skipTaken hskip, advancePc_pc, BitVec.add_assoc]
    rfl
  · have hnext := step_of_decode (s.setPc (s.pc + 4)) j hrun (by rw [setPc_pc, hpc4]; omega) (by rwa [setPc_pc, hpc4])
    refine hnext.trans ?_
    rw [advancePc, setPc_pc, BitVec.add_assoc]
    rfl

end Sys2Proof.Machine
end

section
/-! PROOFS of the register family (41_alu.md; 44_keypad_timers.md R214 to R217; 42_index_memory.md R172): loads, arithmetic,
logic, shifts, the random byte, the key wait and the timers. An instruction of it is one write of a register, or a result with
its flag. -/

namespace Sys2Proof.Machine

/-- An update of the register file that writes the listed registers only changes nothing else. -/
theorem onlyRegs_of_sameRegsBut {rs : List RegIdx} {s : State} {v : Vector Byte 16}
    (h : SameRegsBut rs s { s with v := v }) : OnlyRegs rs s { s with v := v } :=
  ⟨h, rfl, rfl, ⟨rfl, rfl⟩, ⟨rfl, rfl⟩, rfl, fun _ => rfl, ⟨rfl, rfl, rfl, rfl, rfl⟩, rfl⟩

theorem setReg_onlyRegs (s : State) (x : RegIdx) (b : Byte) : OnlyRegs [x] s (s.setReg x b) :=
  onlyRegs_of_sameRegsBut (setReg_sameRegsBut s x b)

theorem setResultFlag_onlyRegs (s : State) (x : RegIdx) (r : Byte × Bool) :
    OnlyRegs [x, vfIdx] s (setResultFlag x r s) :=
  onlyRegs_of_sameRegsBut (setResultFlag_sameRegsBut s x r)

theorem setResultFlag_reg_of_ne (s : State) {x : RegIdx} (r : Byte × Bool) (h : x ≠ vfIdx) :
    (setResultFlag x r s).reg x = r.1 := by
  rw [setResultFlag_reg, if_neg h, if_pos rfl]

theorem setResultFlag_reg_vf (s : State) (x : RegIdx) (r : Byte × Bool) :
    (setResultFlag x r s).reg vfIdx = flagByte r.2 := by
  rw [setResultFlag_reg, if_pos rfl]

/-! ### Loads, logic and the random byte -/

theorem exec_ldImm (x : RegIdx) (nn : Byte) (s : State) : exec (.ldImm x nn) s = .next (s.setReg x nn) := rfl

theorem exec_addImm (x : RegIdx) (nn : Byte) (s : State) :
    exec (.addImm x nn) s = .next (s.setReg x (s.reg x + nn)) := rfl

theorem exec_ldReg (x y : RegIdx) (s : State) : exec (.ldReg x y) s = .next (s.setReg x (s.reg y)) := rfl

theorem exec_orReg (x y : RegIdx) (s : State) :
    exec (.orReg x y) s = .next (s.setReg x (s.reg x ||| s.reg y)) := rfl

theorem exec_andReg (x y : RegIdx) (s : State) :
    exec (.andReg x y) s = .next (s.setReg x (s.reg x &&& s.reg y)) := rfl

theorem exec_xorReg (x y : RegIdx) (s : State) :
    exec (.xorReg x y) s = .next (s.setReg x (s.reg x ^^^ s.reg y)) := rfl

theorem exec_rnd (x : RegIdx) (nn : Byte) (s : State) :
    exec (.rnd x nn) s = .next ((s.setDraws (s.draws + 1)).setReg x (Config.rnd s.draws &&& nn)) := rfl

/-- Settles O34: each is one write of `V[x]`. -/
theorem loadsAndAddImmediate : Obligations.LoadsAndAddImmediate := by
  intro x y nn s
  refine ⟨rfl, rfl, rfl, ⟨_, exec_ldImm x nn s, reg_setReg_self s x _, setReg_onlyRegs s x _⟩,
    ⟨_, exec_addImm x nn s, ?_, setReg_onlyRegs s x _⟩, ⟨_, exec_ldReg x y s, reg_setReg_self s x _, setReg_onlyRegs s x _⟩⟩
  rw [reg_setReg_self, BitVec.toNat_add]

/-- Settles O35: each is one write of `V[x]`, and the operation is bit by bit. -/
theorem logicIsBitwiseAndWritesNoFlag : Obligations.LogicIsBitwiseAndWritesNoFlag := by
  intro x y s
  refine ⟨⟨_, exec_orReg x y s, setReg_onlyRegs s x _, fun k => ?_⟩,
    ⟨_, exec_andReg x y s, setReg_onlyRegs s x _, fun k => ?_⟩, ⟨_, exec_xorReg x y s, setReg_onlyRegs s x _, fun k => ?_⟩⟩
  · rw [reg_setReg_self, BitVec.getLsbD_or]
  · rw [reg_setReg_self, BitVec.getLsbD_and]
  · rw [reg_setReg_self, BitVec.getLsbD_xor]

/-- Settles O39: whatever the byte is, the mask leaves no bit outside `nn`. -/
theorem randomByteIsMasked : Obligations.RandomByteIsMasked := by
  intro x nn s
  refine ⟨_, exec_rnd x nn s, reg_setReg_self _ x _, ?_, rfl, setReg_onlyRegs s x _⟩
  rw [reg_setReg_self, BitVec.and_assoc, BitVec.and_not_self]
  exact BitVec.and_zero

/-! ### Results with a flag -/

theorem exec_addReg (x y : RegIdx) (s : State) :
    exec (.addReg x y) s = .next (setResultFlag x (addCarry (s.reg x) (s.reg y)) s) := rfl

theorem exec_subReg (x y : RegIdx) (s : State) :
    exec (.subReg x y) s = .next (setResultFlag x (subNoBorrow (s.reg x) (s.reg y)) s) := rfl

theorem exec_subnReg (x y : RegIdx) (s : State) :
    exec (.subnReg x y) s = .next (setResultFlag x (subNoBorrow (s.reg y) (s.reg x)) s) := rfl

theorem exec_shr (x y : RegIdx) (s : State) :
    exec (.shr x y) s = .next (setResultFlag x (shiftRightOut (s.reg x)) s) := rfl

theorem exec_shl (x y : RegIdx) (s : State) :
    exec (.shl x y) s = .next (setResultFlag x (shiftLeftOut (s.reg x)) s) := rfl

theorem flagByte_toNat (c : Bool) : (flagByte c).toNat = c.toNat := by
  cases c <;> rfl

theorem flagByte_decide_toNat (p : Prop) [Decidable p] : (flagByte (decide p)).toNat = if p then 1 else 0 := by
  by_cases h : p <;> simp [flagByte, h]

theorem addCarry_toNat (a b : Byte) : (addCarry a b).1.toNat = (a.toNat + b.toNat) % 256 := by
  rw [addCarry, BitVec.toNat_ofNat]
  exact Nat.mod_mod _ _

/-- The difference as integers modulo 256 (R149, R151). -/
theorem subNoBorrow_toInt (a b : Byte) : ((subNoBorrow a b).1.toNat : Int) = (a.toNat - b.toNat : Int) % 256 := by
  have ha := a.isLt
  have hb := b.isLt
  rw [subNoBorrow, BitVec.toNat_ofNat]
  omega

theorem shiftRightOut_toNat (a : Byte) : (shiftRightOut a).1.toNat = a.toNat / 2 := by
  have ha := a.isLt
  rw [shiftRightOut, BitVec.toNat_ofNat]
  omega

theorem shiftRightOut_flag (a : Byte) : (flagByte (shiftRightOut a).2).toNat = a.toNat % 2 := by
  rw [flagByte_toNat, shiftRightOut, BitVec.getLsbD, Nat.toNat_testBit, Nat.pow_zero, Nat.div_one]

theorem shiftLeftOut_toNat (a : Byte) : (shiftLeftOut a).1.toNat = 2 * a.toNat % 256 := by
  rw [shiftLeftOut, BitVec.toNat_ofNat]
  exact Nat.mod_mod _ _

theorem shiftLeftOut_flag (a : Byte) : (flagByte (shiftLeftOut a).2).toNat = a.toNat / 128 := by
  have ha := a.isLt
  rw [flagByte_toNat, shiftLeftOut, BitVec.getLsbD, Nat.toNat_testBit]
  omega

/-- Settles O36: the sum and the carry of the old operands, the flag written last. -/
theorem addWritesSumAndCarry : Obligations.AddWritesSumAndCarry := by
  intro x y s
  refine ⟨_, exec_addReg x y s, setResultFlag_onlyRegs s x _, fun hx => ?_, ?_⟩
  · rw [setResultFlag_reg_of_ne s _ hx, addCarry_toNat]
  · rw [setResultFlag_reg_vf, addCarry, flagByte_decide_toNat]

/-- Settles O37: the difference and NOT borrow of the old operands, in either order, the flag written last. -/
theorem subtractsWriteDifferenceAndNotBorrow : Obligations.SubtractsWriteDifferenceAndNotBorrow := by
  intro x y s
  refine ⟨⟨_, exec_subReg x y s, setResultFlag_onlyRegs s x _, fun hx => ?_, ?_⟩,
    ⟨_, exec_subnReg x y s, setResultFlag_onlyRegs s x _, fun hx => ?_, ?_⟩⟩
  · rw [setResultFlag_reg_of_ne s _ hx, subNoBorrow_toInt]
  · rw [setResultFlag_reg_vf, subNoBorrow, flagByte_decide_toNat]
  · rw [setResultFlag_reg_of_ne s _ hx, subNoBorrow_toInt]
  · rw [setResultFlag_reg_vf, subNoBorrow, flagByte_decide_toNat]

/-- Settles O38: `V[x]` halved or doubled and the bit that leaves it, the flag written last. -/
theorem shiftsWriteTheBitShiftedOut : Obligations.ShiftsWriteTheBitShiftedOut := by
  intro x y s
  refine ⟨⟨_, exec_shr x y s, setResultFlag_onlyRegs s x _, fun hx => ?_, ?_⟩,
    ⟨_, exec_shl x y s, setResultFlag_onlyRegs s x _, fun hx => ?_, ?_⟩⟩
  · rw [setResultFlag_reg_of_ne s _ hx, shiftRightOut_toNat]
  · rw [setResultFlag_reg_vf, shiftRightOut_flag]
  · rw [setResultFlag_reg_of_ne s _ hx, shiftLeftOut_toNat]
  · rw [setResultFlag_reg_vf, shiftLeftOut_flag]

/-! ### Timers, the index and the key wait -/

theorem exec_ldRegDt (x : RegIdx) (s : State) : exec (.ldRegDt x) s = .next (s.setReg x s.dt) := rfl

theorem exec_addI (x : RegIdx) (s : State) : exec (.addI x) s = .next (s.setI (s.i + byteWord (s.reg x))) := rfl

/-- Settles O52: one write of a register or of a timer. -/
theorem timerInstructionsMoveAllEightBits : Obligations.TimerInstructionsMoveAllEightBits := by
  intro x s
  exact ⟨rfl, rfl, rfl, ⟨_, exec_ldRegDt x s, reg_setReg_self s x _, setReg_onlyRegs s x _⟩, rfl, rfl⟩

/-- Settles O41: one write of `I`, the sum of 16-bit words. -/
theorem addToIndexWrapsAtSixteenBits : Obligations.AddToIndexWrapsAtSixteenBits := by
  intro x s
  refine ⟨_, exec_addI x s, ?_, setI_onlyI s _⟩
  rw [setI_i, BitVec.toNat_add, byteWord_toNat]

/-- The search finds a key that is pressed and below which none is. -/
theorem lowestKey_eq_some {s : State} {k : Fin 16} (hk : s.key[k.val] = true)
    (hlow : ∀ j : Fin 16, j < k → s.key[j.val] = false) : lowestKey s = some k := by
  cases hl : lowestKey s with
  | none => exact absurd hk (by rw [(lowestKey_none s).1 hl k]; exact Bool.false_ne_true)
  | some j =>
    obtain ⟨hj, hjlow⟩ := lowestKey_some s j hl
    obtain hlt | rfl | hgt := lt_trichotomy j k
    · rw [hlow j hlt] at hj; cases hj
    · rfl
    · rw [hjlow k hgt] at hk; cases hk

/-- Settles O51: with a key pressed the search finds the lowest; with none the pc goes back by the 2 of the advance. -/
theorem keyWaitTakesTheLowestKeyOrRetries : Obligations.KeyWaitTakesTheLowestKeyOrRetries := by
  intro x s
  refine ⟨rfl, fun k hk hlow => ⟨_, exec_ldKey_of_some x (lowestKey_eq_some hk hlow), ?_, setReg_onlyRegs s x _⟩,
    fun hnone => ⟨exec_ldKey_of_none x ((lowestKey_none s).2 hnone), fun hrun hpc hd => ?_⟩⟩
  · have := k.isLt
    rw [reg_setReg_self, BitVec.toNat_ofNat, Nat.mod_eq_of_lt (by omega)]
  · have hback : (advancePc s).pc - 2 = s.pc := by rw [advancePc_pc, BitVec.add_sub_cancel]
    calc step s
        = exec (.ldKey x) (advancePc s) := step_of_decode s _ hrun hpc hd
      _ = .next ((advancePc s).setPc ((advancePc s).pc - 2)) :=
          exec_ldKey_of_none x ((lowestKey_none (advancePc s)).2 hnone)
      _ = .next s := by rw [hback, advancePc_setPc_pc]

end Sys2Proof.Machine
end

section
/-! PROOFS of the index and memory family, continued (42_index_memory.md R174 to R176): stores and loads from `I` upwards. The
range is checked whole before the first access, so an instruction either does all of its accesses or faults. -/

namespace Sys2Proof.Machine

theorem exec_ldBcd (x : RegIdx) (s : State) :
    exec (.ldBcd x) s = settle s (writeRange (indexAddr s 0) (decimalDigits (s.reg x)) s) := rfl

theorem exec_storeRegs (x : RegIdx) (s : State) :
    exec (.storeRegs x) s = settle s (writeRange (indexAddr s 0) (regsUpTo x s) s) := rfl

theorem exec_loadRegs (x : RegIdx) (s : State) : exec (.loadRegs x) s =
    settle s ((readRange (indexAddr s 0) (rangeCount x) s).map (fun bs => setRegsFrom 0 bs s)) := rfl

/-- A store whose range is inside memory. -/
theorem settle_writeRange_of_le (s : State) (bs : List Byte) (h : s.i.toNat + bs.length ≤ 4096) :
    settle s (writeRange (indexAddr s 0) bs s) = .next (s.setMem (Memory.writeAll s.mem (indexAddr s 0) bs)) := by
  rw [writeRange_ok (indexAddr s 0) bs s (.inr h), settle_ok]

/-- A store whose range passes the end of memory. -/
theorem settle_writeRange_of_gt (s : State) (bs : List Byte) (h0 : 0 < bs.length) (h : 4096 < s.i.toNat + bs.length) :
    settle s (writeRange (indexAddr s 0) bs s) = .next (takeFault (.outOfRange .memory (max s.i.toNat 4096)) s) := by
  rw [writeRange_error (indexAddr s 0) bs s h0 h, settle_error]
  rfl

theorem exec_ldBcd_of_le (x : RegIdx) (s : State) (h : s.i.toNat + 2 ≤ 4095) : exec (.ldBcd x) s =
    .next (s.setMem (Memory.writeAll s.mem (indexAddr s 0) (decimalDigits (s.reg x)))) := by
  rw [exec_ldBcd, settle_writeRange_of_le s _ (by rw [length_decimalDigits]; omega)]

theorem exec_ldBcd_of_gt (x : RegIdx) (s : State) (h : 4095 < s.i.toNat + 2) :
    exec (.ldBcd x) s = .next (takeFault (.outOfRange .memory (max s.i.toNat 4096)) s) := by
  have hlen := length_decimalDigits (s.reg x)
  rw [exec_ldBcd, settle_writeRange_of_gt s _ (by omega) (by omega)]

theorem exec_storeRegs_of_le (x : RegIdx) (s : State) (h : s.i.toNat + x.toNat ≤ 4095) : exec (.storeRegs x) s =
    .next (s.setMem (Memory.writeAll s.mem (indexAddr s 0) (regsUpTo x s))) := by
  rw [exec_storeRegs, settle_writeRange_of_le s _ (by rw [length_regsUpTo]; omega)]

theorem exec_storeRegs_of_gt (x : RegIdx) (s : State) (h : 4095 < s.i.toNat + x.toNat) :
    exec (.storeRegs x) s = .next (takeFault (.outOfRange .memory (max s.i.toNat 4096)) s) := by
  have hlen := length_regsUpTo x s
  rw [exec_storeRegs, settle_writeRange_of_gt s _ (by omega) (by omega)]

theorem exec_loadRegs_of_le (x : RegIdx) (s : State) (h : s.i.toNat + x.toNat ≤ 4095) : exec (.loadRegs x) s =
    .next (setRegsFrom 0 (Memory.readAll s.mem (indexAddr s 0) (rangeCount x)) s) := by
  have hle : indexAddr s 0 + rangeCount x ≤ 4096 := by rw [indexAddr, rangeCount]; omega
  rw [exec_loadRegs, readRange_ok _ _ s (.inr hle)]
  rfl

theorem exec_loadRegs_of_gt (x : RegIdx) (s : State) (h : 4095 < s.i.toNat + x.toNat) :
    exec (.loadRegs x) s = .next (takeFault (.outOfRange .memory (max s.i.toNat 4096)) s) := by
  have hgt : 4096 < indexAddr s 0 + rangeCount x := by rw [indexAddr, rangeCount]; omega
  have hpos : 0 < rangeCount x := Nat.succ_pos _
  rw [exec_loadRegs, readRange_error _ _ s hpos hgt]
  rfl

/-- A decimal digit fits a byte. -/
theorem toNat_ofNat_digit {k : Nat} (h : k < 10) : (BitVec.ofNat 8 k).toNat = k := by
  rw [BitVec.toNat_ofNat, Nat.mod_eq_of_lt (by omega)]

/-- Settles O42: three bytes are stored, the digits in turn, each of them less than 10. -/
theorem decimalDigitsAreStored : Obligations.DecimalDigitsAreStored := by
  intro x s
  refine ⟨fun h => ⟨_, exec_ldBcd_of_le x s h, ?_, ?_, ?_, setMem_writeAll_onlyMemory s _ _⟩, exec_ldBcd_of_gt x s⟩
  all_goals
    have := (s.reg x).isLt
    rw [setMem_mem]
  · exact (congrArg BitVec.toNat (Memory.read_writeAll_add _ _ 0 _ (by simp))).trans (toNat_ofNat_digit (by omega))
  · exact (congrArg BitVec.toNat (Memory.read_writeAll_add _ _ 1 _ (by simp))).trans (toNat_ofNat_digit (by omega))
  · exact (congrArg BitVec.toNat (Memory.read_writeAll_add _ _ 2 _ (by simp))).trans (toNat_ofNat_digit (by omega))

/-- Settles O43: one byte per register of the range is stored, in ascending order. -/
theorem registersAreStoredFromIndex : Obligations.RegistersAreStoredFromIndex := by
  intro x s
  refine ⟨fun h => ⟨_, exec_storeRegs_of_le x s h, fun k hk => ?_, ?_⟩, exec_storeRegs_of_gt x s⟩
  · have hread := Memory.read_writeAll_add s.mem (indexAddr s 0) k.toNat (regsUpTo x s) (by rw [length_regsUpTo]; omega)
    rw [getD_regsUpTo x s _ hk, BitVec.ofNat_toNat, BitVec.setWidth_eq] at hread
    exact hread
  · rw [← length_regsUpTo x s]
    exact setMem_writeAll_onlyMemory s _ _

/-- Settles O44: the bytes of the range go to the registers of the range, in ascending order. -/
theorem registersAreLoadedFromIndex : Obligations.RegistersAreLoadedFromIndex := by
  intro x s
  refine ⟨fun h => ⟨_, exec_loadRegs_of_le x s h, fun k hk => ?_, fun k hk => ?_, setRegsFrom_frame _ 0 s⟩,
    exec_loadRegs_of_gt x s⟩
  all_goals
    have hx := x.isLt
    rw [setRegsFrom_reg _ _ _ _ (by rw [Memory.length_readAll, rangeCount]; omega), Memory.length_readAll, rangeCount]
  · rw [if_pos (by omega), Nat.sub_zero, Memory.getD_readAll _ _ _ _ (by omega)]
    rfl
  · rw [if_neg (by omega)]

end Sys2Proof.Machine
end

section
/-! PROOFS of the display family, continued (43_display.md): one toggle, a drawn sprite read pixel by pixel, and the
presentation buffer. -/

namespace Sys2Proof.Machine

theorem sameCell_eq_true_iff (c d : Nat × Nat) : sameCell c d = true ↔ c.1 % 64 = d.1 % 64 ∧ c.2 % 32 = d.2 % 32 := by
  simp only [sameCell, Bool.and_eq_true, beq_iff_eq]

/-- A toggle, read anywhere: the cell it wraps to is flipped, every other is as before. -/
theorem Pixels.isOn_toggle (p : Pixels) (px py cx cy : Nat) : (p.toggle px py).isOn cx cy =
    if cx % 64 = px % 64 ∧ cy % 32 = py % 32 then !p.isOn px py else p.isOn cx cy := by
  rw [Pixels.isOn_toggle_xor, sameCell_comm]
  split
  · rename_i h
    rw [(sameCell_eq_true_iff (cx, cy) (px, py)).2 h, Bool.xor_true, Pixels.isOn_congr p cx cy px py h.1 h.2]
  · rename_i h
    rw [Bool.eq_false_iff.2 (mt (sameCell_eq_true_iff (cx, cy) (px, py)).1 h), Bool.xor_false]

/-- Settles O45: the toggled cell, and any coordinates beside those they wrap to. -/
theorem toggleFlipsOneWrappedPixel : Obligations.ToggleFlipsOneWrappedPixel := by
  refine ⟨Pixels.isOn_toggle, fun p px py => ?_, fun p px py =>
    Pixels.isOn_congr p px py _ _ (Nat.mod_mod px 64).symm (Nat.mod_mod py 32).symm⟩
  have hflip : (p.toggle px py).isOn px py = !p.isOn px py := (p.isOn_toggle px py px py).trans (if_pos ⟨rfl, rfl⟩)
  rw [Pixels.color, hflip]
  cases p.isOn px py <;> rfl

/-! ### Drawing a sprite -/

/-- A sprite drawn, read at any pixel: exclusive-or with the sprite bit that lands there (R195). -/
theorem isOn_drawRows {rows : List Byte} (hlen : rows.length ≤ 32) (px py : Nat) (p : Pixels) {cx cy : Nat} (hx : cx < 64)
    (hy : cy < 32) :
    (drawRows rows px py (p, false)).1.isOn cx cy = (p.isOn cx cy ^^ spriteCovers rows px py cx cy) := by
  rw [drawRows_eq, isOn_foldl_toggleCell _ _ _ _ (spriteCells_distinct rows px py hlen), spriteCovers_eq _ _ _ _ _ hx hy]

/-- A sprite drawn: a collision is noted exactly when a pixel it toggles was on (R195). -/
theorem collision_drawRows {rows : List Byte} (hlen : rows.length ≤ 32) (px py : Nat) (p : Pixels) :
    (drawRows rows px py (p, false)).2 = true ↔
      ∃ cx cy, cx < 64 ∧ cy < 32 ∧ p.isOn cx cy = true ∧ spriteCovers rows px py cx cy = true := by
  rw [drawRows_eq, flag_foldl_toggleCell _ _ (spriteCells_distinct rows px py hlen), Bool.false_or, List.any_eq_true]
  constructor
  · rintro ⟨c, hc, hon⟩
    have hx := Nat.mod_lt c.1 (show 0 < 64 by decide)
    have hy := Nat.mod_lt c.2 (show 0 < 32 by decide)
    refine ⟨c.1 % 64, c.2 % 32, hx, hy, ?_, ?_⟩
    · rw [← hon]
      exact Pixels.isOn_congr p _ _ _ _ (Nat.mod_mod _ _) (Nat.mod_mod _ _)
    · rw [spriteCovers_eq _ _ _ _ _ hx hy, List.any_eq_true]
      exact ⟨c, hc, (sameCell_eq_true_iff _ _).2 ⟨(Nat.mod_mod _ _).symm, (Nat.mod_mod _ _).symm⟩⟩
  · rintro ⟨cx, cy, hx, hy, hon, hcov⟩
    rw [spriteCovers_eq _ _ _ _ _ hx hy, List.any_eq_true] at hcov
    obtain ⟨c, hc, hsame⟩ := hcov
    rw [sameCell_eq_true_iff] at hsame
    exact ⟨c, hc, (Pixels.isOn_congr p _ _ _ _ hsame.1 hsame.2).trans hon⟩

theorem flagByte_eq_one_iff (c : Bool) : flagByte c = 1 ↔ c = true := by
  cases c <;> decide

theorem flagByte_eq_one_or_zero (c : Bool) : flagByte c = 1 ∨ flagByte c = 0 := by
  cases c <;> decide

theorem drawSprite_pix (rows : List Byte) (px py : Nat) (s : State) :
    (drawSprite rows px py s).pix = (drawRows rows px py (s.pix, false)).1 := rfl

theorem drawSprite_vf (rows : List Byte) (px py : Nat) (s : State) :
    (drawSprite rows px py s).reg vfIdx = flagByte (drawRows rows px py (s.pix, false)).2 :=
  reg_setReg_self s vfIdx _

theorem drawSprite_reg_of_ne (rows : List Byte) (px py : Nat) (s : State) {x : RegIdx} (h : x ≠ vfIdx) :
    (drawSprite rows px py s).reg x = s.reg x :=
  reg_setReg_of_ne s vfIdx x _ h

theorem drawSprite_onlyRegs (rows : List Byte) (px py : Nat) (s : State) :
    OnlyRegs [vfIdx] s { drawSprite rows px py s with pix := s.pix } :=
  setReg_onlyRegs s vfIdx _

theorem exec_drw (x y : RegIdx) (n : Nibble) (s : State) : exec (.drw x y n) s =
    settle s ((readRange (indexAddr s 0) n.toNat s).map
      (fun rows => drawSprite rows (s.reg x).toNat (s.reg y).toNat s)) := rfl

theorem exec_drw_of_le (x y : RegIdx) (n : Nibble) (s : State) (h : n = 0 ∨ s.i.toNat + n.toNat - 1 ≤ 4095) :
    exec (.drw x y n) s = .next
      (drawSprite (Memory.readAll s.mem (indexAddr s 0) n.toNat) (s.reg x).toNat (s.reg y).toNat s) := by
  have hle : n.toNat = 0 ∨ indexAddr s 0 + n.toNat ≤ 4096 := by
    rw [indexAddr]
    exact h.imp (congrArg BitVec.toNat) (by omega)
  rw [exec_drw, readRange_ok _ _ s hle]
  rfl

theorem toNat_pos_of_ne_zero {n : Nibble} (h : n ≠ 0) : 0 < n.toNat :=
  Nat.pos_of_ne_zero fun e => h (BitVec.eq_of_toNat_eq e)

theorem exec_drw_of_gt (x y : RegIdx) (n : Nibble) (s : State) (h0 : n ≠ 0) (h : 4095 < s.i.toNat + n.toNat - 1) :
    exec (.drw x y n) s = .next (takeFault (.outOfRange .memory (max s.i.toNat 4096)) s) := by
  have hpos := toNat_pos_of_ne_zero h0
  have hgt : 4096 < indexAddr s 0 + n.toNat := by rw [indexAddr]; omega
  rw [exec_drw, readRange_error _ _ s hpos hgt]
  rfl

/-- A sprite has at most 15 rows. -/
theorem length_sprite_le (m : Memory) (a : Nat) (n : Nibble) : (Memory.readAll m a n.toNat).length ≤ 32 := by
  have := n.isLt
  rw [Memory.length_readAll]
  omega

/-- Settles O47: the drawn grid pixel by pixel, and `VF` as the flag of the collision. -/
theorem drawXorsTheSpriteAndReportsCollision : Obligations.DrawXorsTheSpriteAndReportsCollision := by
  intro x y n s
  refine ⟨fun h => ⟨_, exec_drw_of_le x y n s h, fun cx cy hx hy => ?_, ?_, ?_, drawSprite_onlyRegs _ _ _ s⟩,
    exec_drw_of_gt x y n s⟩
  · rw [drawSprite_pix, isOn_drawRows (length_sprite_le _ _ n) _ _ _ hx hy]
  · rw [drawSprite_vf]
    exact flagByte_eq_one_or_zero _
  · rw [drawSprite_vf, flagByte_eq_one_iff, collision_drawRows (length_sprite_le _ _ n)]

/-- A sprite drawn twice at one place gives the grid back: each pixel takes the same exclusive-or twice. -/
theorem drawRows_twice {rows : List Byte} (hlen : rows.length ≤ 32) (px py : Nat) (p : Pixels) :
    (drawRows rows px py ((drawRows rows px py (p, false)).1, false)).1 = p := by
  apply Pixels.ext_isOn
  intro cx cy hx hy
  rw [isOn_drawRows hlen _ _ _ hx hy, isOn_drawRows hlen _ _ _ hx hy, Bool.xor_assoc, Bool.xor_self, Bool.xor_false]

/-- Settles O48: the first draw leaves `I`, memory and the position's registers, so the second draws the same sprite at the
same place. -/
theorem drawingTwiceRestoresTheGrid : Obligations.DrawingTwiceRestoresTheGrid := by
  intro x y n s hx hy h
  refine ⟨_, exec_drw_of_le x y n s h, _, exec_drw_of_le x y n _ h, ?_, ?_⟩
  all_goals rw [drawSprite_reg_of_ne _ _ _ s hx, drawSprite_reg_of_ne _ _ _ s hy]
  · exact drawRows_twice (length_sprite_le _ _ n) _ _ s.pix
  · rw [drawSprite_vf, flagByte_eq_one_iff]
    exact collision_drawRows (length_sprite_le _ _ n) _ _ _

/-! ### The presentation buffer -/

/-- Blocks of one length laid end to end: entry `j` of block `k`. -/
theorem getElem?_flatMap_of_length {α β : Type} (f : α → List β) {d : Nat} (hf : ∀ a, (f a).length = d) (l : List α)
    (k : Nat) {j : Nat} (hj : j < d) : (l.flatMap f)[k * d + j]? = l[k]?.bind (fun a => (f a)[j]?) := by
  induction l generalizing k with
  | nil => simp
  | cons a l ih =>
    rw [List.flatMap_cons]
    cases k with
    | zero =>
      rw [Nat.zero_mul, Nat.zero_add, List.getElem?_append_left (by rw [hf]; exact hj)]
      rfl
    | succ k =>
      have hidx : (k + 1) * d + j = (f a).length + (k * d + j) := by rw [hf]; ring
      rw [hidx, List.getElem?_append_right (Nat.le_add_right _ _), Nat.add_sub_cancel_left, ih]
      rfl

theorem length_rgbBytes (c : Rgb) : (rgbBytes c).length = 3 := rfl

theorem length_presentation (p : Pixels) : (presentation p).length = 6144 := by
  simp only [presentation, List.length_flatMap, length_rgbBytes, List.map_const', List.length_range, List.sum_replicate,
    smul_eq_mul]

/-- The triple of pixel (`cx`, `cy`) stands at offset `(cy * 64 + cx) * 3` (R42). -/
theorem getElem?_presentation (p : Pixels) {cx cy j : Nat} (hx : cx < 64) (hy : cy < 32) (hj : j < 3) :
    (presentation p)[(cy * 64 + cx) * 3 + j]? = (rgbBytes (p.color cx cy))[j]? := by
  have hrange : (List.range 2048)[cy * 64 + cx]? = some (cy * 64 + cx) := List.getElem?_range (by omega)
  rw [presentation, getElem?_flatMap_of_length _ (fun _ => length_rgbBytes _) _ _ hj, hrange, Option.bind_some,
    show (cy * 64 + cx) % 64 = cx by omega, show (cy * 64 + cx) / 64 = cy by omega]

/-- The bytes of a pixel: amber where it is on, black where it is off. -/
theorem rgbBytes_color (p : Pixels) (cx cy : Nat) : rgbBytes (p.color cx cy) =
    [if p.isOn cx cy then 0xFF else 0x00, if p.isOn cx cy then 0xBB else 0x00, 0x00] := by
  rw [Pixels.color]
  cases p.isOn cx cy <;> rfl

/-- Settles O49: the buffer is the pixels' triples in row order, and the triple's bytes are those of the pixel's colour. -/
theorem presentationMirrorsTheGrid : Obligations.PresentationMirrorsTheGrid := by
  refine ⟨fun _ _ => rfl, fun p => ⟨length_presentation p, fun cx cy hx hy => ?_⟩⟩
  have hbyte (j : Nat) (hj : j < 3) : (presentation p)[(cy * 64 + cx) * 3 + j]? =
      [if p.isOn cx cy then 0xFF else 0x00, if p.isOn cx cy then 0xBB else 0x00, 0x00][j]? := by
    rw [getElem?_presentation p hx hy hj, rgbBytes_color]
  exact ⟨hbyte 0 (by decide), hbyte 1 (by decide), hbyte 2 (by decide)⟩

end Sys2Proof.Machine
end

section
/-! PROOFS about the table of execute-time faults (60_exceptions.md R280): each of the eight instructions faults exactly under
the table's condition, and no other instruction faults. -/

namespace Sys2Proof.Machine

/-- Where the table gives a fault the instruction takes it. -/
theorem exec_of_executeFault_some {i : Instr} {s : State} {f : Fault} (h : executeFault i s = some f) :
    exec i s = .next (takeFault f s) := by
  cases i
  case ret =>
    obtain ⟨hc, rfl⟩ := Option.ite_some_none_eq_some.1 h
    exact exec_ret_of_empty s hc
  case call nnn =>
    obtain ⟨hc, rfl⟩ := Option.ite_some_none_eq_some.1 h
    exact exec_call_of_full nnn s hc
  case drw x y n =>
    obtain ⟨⟨hpos, hc⟩, rfl⟩ := Option.ite_some_none_eq_some.1 h
    exact exec_drw_of_gt x y n s (by rintro rfl; exact absurd hpos (lt_irrefl 0)) hc
  case skp x =>
    obtain ⟨hc, rfl⟩ := Option.ite_some_none_eq_some.1 h
    exact exec_skp_of_ge x s hc
  case sknp x =>
    obtain ⟨hc, rfl⟩ := Option.ite_some_none_eq_some.1 h
    exact exec_sknp_of_ge x s hc
  case ldBcd x =>
    obtain ⟨hc, rfl⟩ := Option.ite_some_none_eq_some.1 h
    exact exec_ldBcd_of_gt x s hc
  case storeRegs x =>
    obtain ⟨hc, rfl⟩ := Option.ite_some_none_eq_some.1 h
    exact exec_storeRegs_of_gt x s hc
  case loadRegs x =>
    obtain ⟨hc, rfl⟩ := Option.ite_some_none_eq_some.1 h
    exact exec_loadRegs_of_gt x s hc
  all_goals cases h

theorem not_of_ite_eq_none {p : Prop} [Decidable p] {f : Fault} (h : (if p then some f else none) = none) : ¬p :=
  fun hp => Option.some_ne_none f (ite_eq_right_iff.1 h hp)

/-- Where the table gives none the instruction leaves the latch as it was. -/
theorem exec_of_executeFault_none {i : Instr} {s : State} (h : executeFault i s = none) :
    ∃ t, exec i s = .next t ∧ t.fault = s.fault := by
  cases i
  case ret => exact ⟨_, exec_ret_of_pos s (Nat.pos_of_ne_zero (not_of_ite_eq_none h)), rfl⟩
  case call nnn =>
    have hc := not_of_ite_eq_none h
    exact ⟨_, exec_call_of_lt nnn s (by omega), rfl⟩
  case drw x y n =>
    have hc := not_of_ite_eq_none h
    have hle : n = 0 ∨ s.i.toNat + n.toNat - 1 ≤ 4095 :=
      (eq_or_ne n 0).imp_right fun hn => not_lt.1 fun hgt => hc ⟨toNat_pos_of_ne_zero hn, hgt⟩
    exact ⟨_, exec_drw_of_le x y n s hle, rfl⟩
  case skp x =>
    exact ⟨_, exec_skp_of_lt x s (Nat.lt_succ_of_le (not_lt.1 (not_of_ite_eq_none h))), skipIf_fault _ s⟩
  case sknp x =>
    exact ⟨_, exec_sknp_of_lt x s (Nat.lt_succ_of_le (not_lt.1 (not_of_ite_eq_none h))), skipIf_fault _ s⟩
  case ldBcd x => exact ⟨_, exec_ldBcd_of_le x s (not_lt.1 (not_of_ite_eq_none h)), rfl⟩
  case storeRegs x => exact ⟨_, exec_storeRegs_of_le x s (not_lt.1 (not_of_ite_eq_none h)), rfl⟩
  case loadRegs x =>
    refine ⟨_, exec_loadRegs_of_le x s (not_lt.1 (not_of_ite_eq_none h)), ?_⟩
    rw [setRegsFrom_eq]
  case seImm | sneImm | seReg | sneReg => exact ⟨_, rfl, skipIf_fault _ s⟩
  case ldKey x =>
    cases hk : lowestKey s with
    | some k => exact ⟨_, exec_ldKey_of_some x hk, rfl⟩
    | none => exact ⟨_, exec_ldKey_of_none x hk, rfl⟩
  all_goals exact ⟨_, rfl, rfl⟩

/-- Settles O12: the table's condition decides, instruction by instruction. -/
theorem executeFaultsAreThoseOfTheTable : Obligations.ExecuteFaultsAreThoseOfTheTable := by
  intro i s hrun
  split
  · rename_i f hf
    exact exec_of_executeFault_some hf
  · rename_i hf
    obtain ⟨t, ht, hfault⟩ := exec_of_executeFault_none hf
    exact ⟨t, ht, hfault.trans hrun⟩

end Sys2Proof.Machine
end
